-- ==== Sys2Proof/Word.lean ====
section
/-! DEFINITION. The fixed widths of the engine: bytes, SHA-1 words, command and response words (R7, R10, R11). -/

namespace Sys2Proof

/-- A byte: a value of width 8 (R11). -/
abbrev Byte := BitVec 8

/-- A SHA-1 word: `WORD_BITS` = 32 (R7). -/
abbrev Word := BitVec 32

/-- A command word: `CMD_BITS` = 16 (R7, R70). -/
abbrev CmdWord := BitVec 16

/-- A response word: `RSP_BITS` = 16 (R7, R72). -/
abbrev RspWord := BitVec 16

end Sys2Proof
end

