-- ==== Sys2Proof/Syntax.lean ====
section
/-! DEFINITION. The eleven commands of `HS1-CMD v1` (R73), one constructor per row of spec/opcode_table.json. -/

namespace Sys2Proof

/-- A command. Format N commands carry nothing, format D commands one byte, the format X command a 5-bit index (R71). -/
inductive Instr where
  /-- `CLR`: clear the engine (R173). -/
  | clr
  /-- `RDST`: read the status byte (R174). -/
  | rdst
  /-- `RDERR`: read the error code (R175). -/
  | rderr
  /-- `KBYTE b`: deliver one raw key byte (R118). -/
  | kbyte (b : Byte)
  /-- `KCHAR c`: deliver one Base32 character (R122). -/
  | kchar (c : Byte)
  /-- `KEND`: close and normalise the key (R123). -/
  | kend
  /-- `CBYTE b`: shift one byte into the counter (R140). -/
  | cbyte (b : Byte)
  /-- `HMAC`: compute the digest, then destroy the key (R149). -/
  | hmac
  /-- `TRUNC`: truncate the digest (R161). -/
  | trunc
  /-- `REDUCE`: reduce and form the six digits (R164). -/
  | reduce
  /-- `RDB i`: read one byte of the result window (R176). -/
  | rdb (idx : BitVec 5)
  deriving DecidableEq, Repr

end Sys2Proof
end

