-- ==== Sys2Proof/WellFormed.lean ====
section
/-! DEFINITION. Which terms of `Instr` are commands: every operand value the fields admit, but for the reserved window
indexes 30 and 31 (R50, R71). -/

namespace Sys2Proof

/-- A command whose word is legal: an `RDB` index is at most 29 (R71, format X); every other operand is free. -/
def Instr.wellFormed : Instr → Bool
  | .clr => true
  | .rdst => true
  | .rderr => true
  | .kbyte _ => true
  | .kchar _ => true
  | .kend => true
  | .cbyte _ => true
  | .hmac => true
  | .trunc => true
  | .reduce => true
  | .rdb idx => decide (idx.toNat ≤ 29)

end Sys2Proof
end

