-- ==== Sys2Proof/Decode.lean ====
section
/-! DEFINITION. The decoder, a total function of the 16-bit word (R74), rejecting by name; then the encoder (R73). -/

namespace Sys2Proof

/-- Why a word is no command (R75, R187); each reason is the one fault `IllegalCommand`. -/
inductive Reject where
  /-- One of the 245 unassigned opcode bytes. -/
  | unassignedOpcode
  /-- A format N opcode whose low byte is not 0x00. -/
  | operandNotZero
  /-- The opcode of `RDB` with a low byte of 30 to 255. -/
  | indexReserved
  deriving DecidableEq, Repr

/-- `op` = `cmd[15:8]` (R71). -/
def opField (w : CmdWord) : Byte := w.extractLsb' 8 8

/-- `imm8` = `cmd[7:0]` (R71). -/
def immField (w : CmdWord) : Byte := w.extractLsb' 0 8

/-- Format N: the low byte must be 0x00 (R71). -/
def decodeNone (w : CmdWord) (i : Instr) : Except Reject Instr :=
  if immField w = 0 then .ok i else .error .operandNotZero

/-- Format X: the low byte is the index, 0 to 29 (R71, R74). -/
def decodeIndex (w : CmdWord) : Except Reject Instr :=
  if (immField w).toNat ≤ 29 then .ok (.rdb ((immField w).setWidth 5)) else .error .indexReserved

/-- `Decode` of R74: the opcode byte selects the row, the low byte is its operand. -/
def decode (w : CmdWord) : Except Reject Instr :=
  match opField w with
  | 0x01#8 => decodeNone w .clr
  | 0x02#8 => decodeNone w .rdst
  | 0x03#8 => decodeNone w .rderr
  | 0x12#8 => .ok (.kbyte (immField w))
  | 0x13#8 => .ok (.kchar (immField w))
  | 0x14#8 => decodeNone w .kend
  | 0x20#8 => .ok (.cbyte (immField w))
  | 0x30#8 => decodeNone w .hmac
  | 0x40#8 => decodeNone w .trunc
  | 0x41#8 => decodeNone w .reduce
  | 0x50#8 => decodeIndex w
  | _ => .error .unassignedOpcode

/-- The opcode byte of each command (R73). -/
def opcode : Instr → Byte
  | .clr => 0x01
  | .rdst => 0x02
  | .rderr => 0x03
  | .kbyte _ => 0x12
  | .kchar _ => 0x13
  | .kend => 0x14
  | .cbyte _ => 0x20
  | .hmac => 0x30
  | .trunc => 0x40
  | .reduce => 0x41
  | .rdb _ => 0x50

/-- The low byte of each command's word (R71, R73). -/
def lowByte : Instr → Byte
  | .clr => 0
  | .rdst => 0
  | .rderr => 0
  | .kbyte b => b
  | .kchar c => c
  | .kend => 0
  | .cbyte b => b
  | .hmac => 0
  | .trunc => 0
  | .reduce => 0
  | .rdb idx => idx.setWidth 8

/-- The word of a command: the opcode in bits 15:8, the operand in bits 7:0 (R71, R73). -/
def encode (i : Instr) : CmdWord := opcode i ++ lowByte i

/-- What the decoder reads from a row of spec/opcode_table.json whose `nbits` bits are `w`. Every command is one 16-bit
word (R77), a number and not a byte sequence (R53), so bit k of the table is bit k of the word; no command is longer. -/
def decodeTableWord (nbits w : Nat) : Option Instr :=
  if 16 < nbits then none
  else
    match decode (BitVec.ofNat 16 (w % 2 ^ nbits)) with
    | .ok i => some i
    | .error _ => none

end Sys2Proof
end

