-- ==== Sys2Proof/Config.lean ====
section
/-! DEFINITION. What a platform fixes: the one parameter of the command set `HS1-CMD v1`, `KEYMAX` (R7, R37; D8).
The spec leaves no other value open (93_implementation_defined.md: "there is no field, register or response whose value
is left free, except through the parameter of Part 2"), so there is no free value. -/

namespace Sys2Proof

/-- The fixed parameters of one engine. -/
structure Config where
  /-- `KEYMAX`: the largest key length in bytes the engine accepts (R7). -/
  keyMax : Nat
  deriving DecidableEq, Repr

/-- The range the spec allows for `KEYMAX`: 64 to 2^61 − 1 (R7). -/
def Config.Wf (c : Config) : Prop := 64 ≤ c.keyMax ∧ c.keyMax ≤ 2 ^ 61 - 1

/-- The default platform: `KEYMAX` = 2^61 − 1 (R7). -/
def Config.default : Config := { keyMax := 2 ^ 61 - 1 }

end Sys2Proof
end

