-- ==== Sys2Proof/Machine/State.lean ====
section
/-! DEFINITION. The state of the engine: the sixteen registers of R20, and around them what the spec makes an argument or a
result of `Step(S, cmd) = (S', rsp)` (R70): the parameter, the host's coming commands, the responses so far. -/

namespace Sys2Proof.Machine

/-- The phases `PHASE` takes (R21). The 3-bit codes 5 and 6 "are never written by any rule and are unreachable" (R21), so
they have no name here (log entry 6). The codes are in `Phase.code`. -/
inductive Phase where
  /-- 0: cleared; no key byte or character received. -/
  | idle
  /-- 1: at least one raw key byte received. -/
  | keyRaw
  /-- 2: at least one Base32 character received. -/
  | keyB32
  /-- 3: key closed. -/
  | keyed
  /-- 4: `HMAC` has run. -/
  | done
  /-- 7: a fault was raised. -/
  | error
  deriving DecidableEq, Repr

/-- The faults of the ENGINE (R185). Taking one is a NEXT state (`raiseFault`, R190), never an end of the run. -/
inductive Exc where
  /-- The secret text is not valid Base32 (R186). -/
  | invalidKey
  /-- The word decodes to no command (R187). -/
  | illegalCommand
  /-- The command is not legal in the current phase, or its input is not yet valid (R188). -/
  | sequenceError
  /-- A key byte beyond `KEYMAX` (R189). -/
  | keyOverflow
  deriving DecidableEq, Repr

/-- "The complete state of the engine is the tuple of the registers in this table. Nothing else is state." (R20) -/
structure Regs where
  /-- `PHASE`, the sequencer (R21). -/
  phase : Phase
  /-- `ERRC`, the code of the first fault since the last clear (R23). -/
  errc : Byte
  /-- `TV`: `TR` is valid (R25). -/
  tv : Bool
  /-- `CV`: `CODE` is valid (R25). -/
  cv : Bool
  /-- `K0[0..63]`, the key register (R26). -/
  k0 : Vector Byte 64
  /-- `BLK[0..63]`, the block buffer of a long key (R27). -/
  blk : Vector Byte 64
  /-- `H[0..4]`, the chaining value of the long-key hash (R28). -/
  h : Vector Word 5
  /-- `KLEN`, the number of key bytes received (R29). -/
  klen : BitVec 64
  /-- `BACC`, the Base32 group accumulator (R30). -/
  bacc : BitVec 40
  /-- `BN`, characters received in the current group (R30). -/
  bn : BitVec 3
  /-- `BPAD`, pad characters among them (R30). -/
  bpad : BitVec 3
  /-- `BEND`: a padded group has been completed (R25). -/
  bend : Bool
  /-- `CTR`, the counter (R31). -/
  ctr : BitVec 64
  /-- `DG[0..19]`, the digest (R32). -/
  dg : Vector Byte 20
  /-- `TR`, the truncated integer (R33). -/
  tr : BitVec 32
  /-- `CODE[0..5]`, six ASCII digits (R34). -/
  code : Vector Byte 6
  deriving DecidableEq, Repr

/-- `S0`: every register is zero (R38). -/
def Regs.zero : Regs :=
  { phase := .idle, errc := 0, tv := false, cv := false
    k0 := Vector.replicate 64 0, blk := Vector.replicate 64 0, h := Vector.replicate 5 0
    klen := 0, bacc := 0, bn := 0, bpad := 0, bend := false, ctr := 0
    dg := Vector.replicate 20 0, tr := 0, code := Vector.replicate 6 0 }

/-- What the host does to the engine between two commands: it issues a command word (R8), or the one reset occurs (R215). -/
inductive HostEvent where
  /-- A command word arrives at the command port. -/
  | command (w : CmdWord)
  /-- Reset occurs; it is not a command and returns no response (R215). -/
  | reset
  deriving DecidableEq, Repr

/-- The engine with its interface. -/
structure State where
  /-- The registers of R20: the spec's state `S`. -/
  regs : Regs
  /-- The parameter of the step function, `KEYMAX` (R37); no step changes it (log entry 5). -/
  cfg : Config
  /-- What the host will still do, next first (R8, R58; log entry 1). -/
  inbox : List HostEvent
  /-- The responses of the commands so far, oldest first (R58, R70; log entry 4). -/
  outbox : List RspWord
  deriving DecidableEq, Repr

/-- Reasons to stop the machine: there are none, because `Step` is total (R70): "in this spec every command in every state has
exactly one defined outcome" (93_implementation_defined.md). A fault of the engine is an `Exc` and is taken. -/
inductive Fault where
  deriving DecidableEq, Repr

/-- Reasons to give a command no meaning. -/
inductive Refusal where
  /-- The command of this mnemonic is not modelled; raised by an arm of `exec` only, and no arm does. Safe. -/
  | notModelled (mnemonic : String)
  deriving DecidableEq, Repr

/-- The machine right after reset: every register zero (R38, R215), the default platform (R7), no command issued yet, no
response given yet (R216: it "waits in `IDLE` for the first command word"). -/
def State.reset : State := { regs := Regs.zero, cfg := Config.default, inbox := [], outbox := [] }

end Sys2Proof.Machine
end

