-- ==== Sys2Proof/Machine/Flags.lean ====
section
/-! DEFINITION. The codes of `PHASE` and `ERRC`, and the status byte made of `PHASE`, `TV` and `CV`. The engine has no
condition codes and no arithmetic flags (R25). -/

namespace Sys2Proof.Machine

/-- The 3-bit code of a phase (R21). -/
def Phase.code : Phase → BitVec 3
  | .idle => 0
  | .keyRaw => 1
  | .keyB32 => 2
  | .keyed => 3
  | .done => 4
  | .error => 7

/-- The code a fault leaves in `ERRC` (R185). -/
def Exc.code : Exc → Byte
  | .invalidKey => 0x01
  | .illegalCommand => 0x10
  | .sequenceError => 0x11
  | .keyOverflow => 0x12

/-- One flag as a number. -/
def bit (f : Bool) : Byte := if f then 1 else 0

/-- The status byte `ST` = `PHASE + 8·TV + 16·CV`, a view and no register (R24). -/
def statusByte (r : Regs) : Byte := r.phase.code.setWidth 8 + 8 * bit r.tv + 16 * bit r.cv

end Sys2Proof.Machine
end

