-- ==== Sys2Proof/Machine/Bytes.lean ====
section
/-! DEFINITION. Byte order and word helpers of the notation (R10, R11, R53): everything is big-endian. -/

namespace Sys2Proof.Machine

/-- `be32(v)` = `[v[31:24], v[23:16], v[15:8], v[7:0]]` (R11). -/
def be32 (v : Word) : List Byte :=
  [v.extractLsb' 24 8, v.extractLsb' 16 8, v.extractLsb' 8 8, v.extractLsb' 0 8]

/-- `be64(v)`: the eight bytes of a 64-bit value, most significant first (R11, R143). -/
def be64 (v : BitVec 64) : List Byte :=
  [v.extractLsb' 56 8, v.extractLsb' 48 8, v.extractLsb' 40 8, v.extractLsb' 32 8,
   v.extractLsb' 24 8, v.extractLsb' 16 8, v.extractLsb' 8 8, v.extractLsb' 0 8]

/-- `u32be` of a 4-byte string: the first byte is the most significant (R11). -/
def u32be (b0 b1 b2 b3 : Byte) : Word := b0 ++ b1 ++ b2 ++ b3

/-- `ROTL32(x, n)` for 0 < n < 32 (R10). -/
def rotl32 (x : Word) (n : Nat) : Word := (x <<< n) ||| (x >>> (32 - n))

/-- `s xor8 b`: every byte of s xored with b (R11). -/
def xor8 (s : List Byte) (b : Byte) : List Byte := s.map (· ^^^ b)

/-- `rep(b, n)`: n copies of byte b (R11). -/
def rep (b : Byte) (n : Nat) : List Byte := List.replicate n b

/-- A byte string as the contents of an n-byte register: its first n bytes, zeros after its end. -/
def toReg (n : Nat) (s : List Byte) : Vector Byte n := Vector.mk (s.takeD n 0).toArray (by simp)

end Sys2Proof.Machine
end

