-- ==== Sys2Proof/Machine/Operands.lean ====
section
/-! DEFINITION. Which command is legal in which phase (R78), and the engine's one addressable space, the result window
(R50, R51). Operands are used as they stand: no sign extension, no scaling (R76). -/

namespace Sys2Proof.Machine

/-- An entry of the legality table (R78). -/
inductive Legality where
  /-- "ok": the command's rule runs. -/
  | ok
  /-- "SEQ": `SequenceError` is raised. -/
  | seq
  /-- "refused": the response is 0x8000 and the state is unchanged. -/
  | refused
  deriving DecidableEq, Repr

/-- One line of the legality table: the entries under `IDLE`, `KEY_RAW`, `KEY_B32`, `KEYED`, `DONE`, `ERROR`. -/
def legalityRow (idle keyRaw keyB32 keyed done error : Legality) : Phase → Legality
  | .idle => idle
  | .keyRaw => keyRaw
  | .keyB32 => keyB32
  | .keyed => keyed
  | .done => done
  | .error => error

/-- The legality table (R78). The conditions the table puts in parentheses (`TV` = 1, `CV` = 1) are checked after the phase,
in the command's own rule. -/
def legality : Instr → Phase → Legality
  | .clr => legalityRow .ok .ok .ok .ok .ok .ok
  | .rdst => legalityRow .ok .ok .ok .ok .ok .ok
  | .rderr => legalityRow .ok .ok .ok .ok .ok .ok
  | .kbyte _ => legalityRow .ok .ok .seq .seq .seq .refused
  | .kchar _ => legalityRow .ok .seq .ok .seq .seq .refused
  | .kend => legalityRow .ok .ok .ok .seq .seq .refused
  | .cbyte _ => legalityRow .ok .ok .ok .ok .seq .refused
  | .hmac => legalityRow .seq .seq .seq .ok .seq .refused
  | .trunc => legalityRow .seq .seq .seq .seq .ok .refused
  | .reduce => legalityRow .seq .seq .seq .seq .ok .refused
  | .rdb _ => legalityRow .seq .seq .seq .seq .ok .refused

/-- `MemRead(a, 1)`, the content column of the window map (R13, R51): 0 to 19 `DG`, 20 to 23 `be32(TR)`, 24 to 29 `CODE`.
The window has no storage of its own. `none`: there is no such address (30 and 31 are reserved, R50). -/
def windowByte (r : Regs) (a : Nat) : Option Byte :=
  (r.dg.toList ++ be32 r.tr ++ r.code.toList)[a]?

/-- The "valid when" column of the window map (R51); the phase `DONE` is already checked by R78. -/
def windowValid (r : Regs) (a : Nat) : Bool :=
  if a ≤ 19 then true else if a ≤ 23 then r.tv else if a ≤ 29 then r.cv else false

end Sys2Proof.Machine
end

