-- ==== Sys2Proof/Machine/Sha1.lean ====
section
/-! DEFINITION. The SHA-1 function (40_sha1_function.md, R95 to R104). No command reaches it but through key loading and
`HMAC` (R106). -/

namespace Sys2Proof.Machine

/-- A chaining value: five words. -/
abbrev Chain := Vector Word 5

/-- The message words of a block: bytes 4i to 4i + 3 form word i, first byte most significant (R95). -/
def blockWords : List Byte → List Word
  | b0 :: b1 :: b2 :: b3 :: rest => u32be b0 b1 b2 b3 :: blockWords rest
  | _ => []

/-- The round function f: Ch, Parity, Maj, Parity by round range (R96). -/
def roundF (t : Nat) (x y z : Word) : Word :=
  if t ≤ 19 then (x &&& y) ||| (~~~x &&& z)
  else if t ≤ 39 then x ^^^ y ^^^ z
  else if t ≤ 59 then (x &&& y) ||| (x &&& z) ||| (y &&& z)
  else x ^^^ y ^^^ z

/-- The round constant K (R97). -/
def roundK (t : Nat) : Word :=
  if t ≤ 19 then 0x5A827999
  else if t ≤ 39 then 0x6ED9EBA1
  else if t ≤ 59 then 0x8F1BBCDC
  else 0xCA62C1D6

/-- The initial value, a constant operand and no register (R98). -/
def iv : Chain := #v[0x67452301, 0xEFCDAB89, 0x98BADCFE, 0x10325476, 0xC3D2E1F0]

/-- Extends a schedule by n words (R99). The list holds W[t−1], W[t−2], … newest first, so W[t−3], W[t−8], W[t−14] and
W[t−16] stand at its places 2, 7, 13 and 15. -/
def extendSchedule : Nat → List Word → List Word
  | 0, w => w
  | n + 1, w =>
    extendSchedule n (rotl32 (w.getD 2 0 ^^^ w.getD 7 0 ^^^ w.getD 13 0 ^^^ w.getD 15 0) 1 :: w)

/-- The message schedule W[0..79] of the sixteen words M (R99). -/
def schedule (m : List Word) : List Word := (extendSchedule 64 m.reverse).reverse

/-- The working variables (a, b, c, d, e); not state (R35). -/
structure Vars where
  a : Word
  b : Word
  c : Word
  d : Word
  e : Word
  deriving DecidableEq, Repr

/-- One round (R100); `w` is W[t]. -/
def sha1Round (t : Nat) (w : Word) (v : Vars) : Vars :=
  { a := rotl32 v.a 5 + roundF t v.b v.c v.d + v.e + roundK t + w
    b := v.a
    c := rotl32 v.b 30
    d := v.c
    e := v.d }

/-- The rounds from t on, one for each word of the schedule, in order (R101). -/
def sha1Rounds : Nat → List Word → Vars → Vars
  | _, [], v => v
  | t, w :: ws, v => sha1Rounds (t + 1) ws (sha1Round t w v)

/-- `Compress(Hin, B)` (R101). -/
def compress (hin : Chain) (block : List Byte) : Chain :=
  let v := sha1Rounds 0 (schedule (blockWords block))
    { a := hin[0], b := hin[1], c := hin[2], d := hin[3], e := hin[4] }
  #v[hin[0] + v.a, hin[1] + v.b, hin[2] + v.c, hin[3] + v.d, hin[4] + v.e]

/-- `FinalBlocks(tail, L)`: the padded end of a message of L bytes, one block or two (R102). -/
def finalBlocks (tail : List Byte) (len : Nat) : List (List Byte) :=
  if tail.length ≤ 55 then
    [tail ++ [0x80] ++ rep 0x00 (55 - tail.length) ++ be64 (BitVec.ofNat 64 (8 * len))]
  else
    [tail ++ [0x80] ++ rep 0x00 (63 - tail.length),
     rep 0x00 56 ++ be64 (BitVec.ofNat 64 (8 * len))]

/-- The chaining value after the first n complete 64-byte blocks of m (R103). -/
def compressBlocks : Nat → Chain → List Byte → Chain
  | 0, hc, _ => hc
  | n + 1, hc, m => compressBlocks n (compress hc (m.take 64)) (m.drop 64)

/-- The chaining value after the final blocks of a message (R103). -/
def finishHash (hc : Chain) (tail : List Byte) (len : Nat) : Chain :=
  (finalBlocks tail len).foldl compress hc

/-- `Ser(Hc)`: the 20-byte digest, word 0 first, each word big-endian (R104). -/
def ser (hc : Chain) : Vector Byte 20 :=
  toReg 20 (be32 hc[0] ++ be32 hc[1] ++ be32 hc[2] ++ be32 hc[3] ++ be32 hc[4])

/-- `Sha1(m)` (R103). -/
def sha1 (m : List Byte) : Vector Byte 20 :=
  let n := m.length / 64
  ser (finishHash (compressBlocks n iv m) (m.drop (64 * n)) m.length)

end Sys2Proof.Machine
end

