-- ==== Sys2Proof/Machine/Ops.lean ====
section
/-! DEFINITION. The operations the commands share: answering, taking a fault (R190), returning from one (R194), running a
command under the legality table (R70), and pushing a key byte (R117). -/

namespace Sys2Proof.Machine

/-- The response of a command that succeeds: `FAULT` = 0 and the data byte in bits 7:0 (R72). -/
def okRsp (data : Byte) : RspWord := data.setWidth 16

/-- The response of a command that faults or is refused: exactly 0x8000 (R72). -/
def faultRsp : RspWord := 0x8000

/-- `FAULT` = `rsp[15]` (R72). -/
def rspFault (rsp : RspWord) : Bool := rsp.getLsbD 15

/-- `data` = `rsp[7:0]` (R72). -/
def rspData (rsp : RspWord) : Byte := rsp.extractLsb' 0 8

/-- Gives the response of the command being executed (R58, R70 (6)). -/
def respond (rsp : RspWord) (s : State) : State := { s with outbox := s.outbox ++ [rsp] }

/-- The registers after fault entry: every register zero but `ERRC` and `PHASE` (R190). -/
def faultRegs (e : Exc) : Regs := { Regs.zero with errc := e.code, phase := .error }

/-- A refused command: "the state does not change at all ... and the response is 0x8000" (R191). -/
def refuse (s : State) : State := respond faultRsp s

/-- TAKING A FAULT (R190). `s` is the state before the command: its writes are discarded. In phase `ERROR` the state is
unchanged and the response is 0x8000. -/
def raiseFault (e : Exc) (s : State) : State :=
  if s.regs.phase = .error then refuse s else respond faultRsp { s with regs := faultRegs e }

/-- RETURN FROM `ERROR`, and the effect of reset: every register becomes zero (R173, R194, R215). -/
def clearRegs (s : State) : State := { s with regs := Regs.zero }

/-- What a command's rule does to the registers: new registers and a data byte, or a raise. -/
abbrev Effect := Except Exc (Regs × Byte)

/-- Runs a command's rule on the registers in the order of R70: (2), (3), (4) the legality table, (5) the rule, (6) the
response. All writes take effect together at the end (R12). -/
def runCommand (i : Instr) (rule : Regs → Effect) (s : State) : Host.Outcome State Fault Refusal :=
  match legality i s.regs.phase with
  | .refused => .next (refuse s)
  | .seq => .next (raiseFault .sequenceError s)
  | .ok =>
    match rule s.regs with
    | .error e => .next (raiseFault e s)
    | .ok (r, data) => .next (respond (okRsp data) { s with regs := r })

/-- A word that decodes to no command (R75, R187). -/
def execIllegal (s : State) : Host.Outcome State Fault Refusal := .next (raiseFault .illegalCommand s)

/-- `KeyPush(b)` for a key byte past the 64th: compress `K0` first when this is the 65th, store the byte at
`BLK[KLEN mod 64]`, compress the block when that fills it (R117). -/
def pushLong (b : Byte) (r : Regs) : Regs :=
  let h0 := if r.klen = 64 then compress iv r.k0.toList else r.h
  let j := r.klen.toNat % 64
  let blk := r.blk.set j b (Nat.mod_lt _ (by decide))
  { r with
    blk := blk
    h := if j = 63 then compress h0 blk.toList else h0
    klen := r.klen + 1 }

/-- `KeyPush(b)`: one key byte enters the engine (R117). -/
def keyPush (keyMax : Nat) (b : Byte) (r : Regs) : Except Exc Regs :=
  if r.klen.toNat = keyMax then .error .keyOverflow
  else if h : r.klen.toNat < 64 then .ok { r with k0 := r.k0.set r.klen.toNat b h, klen := r.klen + 1 }
  else .ok (pushLong b r)

/-- Key bytes pushed in order; the first raise ends it (R122, group emission). -/
def keyPushAll (keyMax : Nat) : List Byte → Regs → Except Exc Regs
  | [], r => .ok r
  | b :: bs, r =>
    match keyPush keyMax b r with
    | .error e => .error e
    | .ok r' => keyPushAll keyMax bs r'

end Sys2Proof.Machine
end

