-- ==== Sys2Proof/Machine/Control.lean ====
section
/-! DEFINITION. The control and read commands `CLR`, `RDST`, `RDERR`, `RDB` (45_control_read.md). -/

namespace Sys2Proof.Machine

/-- `CLR`: the state becomes `S0` (R173). -/
def execClr (s : State) : Host.Outcome State Fault Refusal :=
  runCommand .clr (fun _ => .ok (Regs.zero, 0)) s

/-- `RDST`: the data is the status byte `ST` (R174). -/
def execRdst (s : State) : Host.Outcome State Fault Refusal :=
  runCommand .rdst (fun r => .ok (r, statusByte r)) s

/-- `RDERR`: the data is `ERRC`; reading does not clear it (R175). -/
def execRderr (s : State) : Host.Outcome State Fault Refusal :=
  runCommand .rderr (fun r => .ok (r, r.errc)) s

/-- The rule of `RDB`: `SequenceError` when the addressed byte has not been produced, else that byte (R176). -/
def rdbRule (idx : BitVec 5) (r : Regs) : Effect :=
  if windowValid r idx.toNat then
    match windowByte r idx.toNat with
    | some data => .ok (r, data)
    | none => .error .illegalCommand
  else .error .sequenceError

/-- `RDB i`: read one byte of the result window (R176). The indexes 30 and 31 are reserved and their use is
`IllegalCommand`, whatever the state (R50); the decoder already rejects their words (log entry 8). -/
def execRdb (idx : BitVec 5) (s : State) : Host.Outcome State Fault Refusal :=
  if 29 < idx.toNat then execIllegal s else runCommand (.rdb idx) (rdbRule idx) s

end Sys2Proof.Machine
end

