-- ==== Sys2Proof/Machine/Counter.lean ====
section
/-! DEFINITION. The counter: `CBYTE` (42_counter.md). -/

namespace Sys2Proof.Machine

/-- `CTR` after one byte: (`CTR` · 256 + b) mod 2^64 (R140). -/
def shiftCounter (ctr : BitVec 64) (b : Byte) : BitVec 64 := BitVec.ofNat 64 (ctr.toNat * 256 + b.toNat)

/-- `CBYTE b`: shift one byte into the counter; nothing else changes, in particular not `PHASE` (R140). -/
def execCbyte (b : Byte) (s : State) : Host.Outcome State Fault Refusal :=
  runCommand (.cbyte b) (fun r => .ok ({ r with ctr := shiftCounter r.ctr b }, 0)) s

end Sys2Proof.Machine
end

