-- ==== Sys2Proof/Machine/Hmac.lean ====
section
/-! DEFINITION. HMAC-SHA1 over the counter: the function `HmacSha1` and the command `HMAC` (43_hmac.md). -/

namespace Sys2Proof.Machine

/-- `IPAD` (R7). -/
def ipad : Byte := 0x36

/-- `OPAD` (R7). -/
def opad : Byte := 0x5C

/-- `HmacSha1(k0, m)` for a normalised key block k0 (R147). -/
def hmacSha1 (k0 : Vector Byte 64) (m : List Byte) : Vector Byte 20 :=
  sha1 (xor8 k0.toList opad ++ (sha1 (xor8 k0.toList ipad ++ m)).toList)

/-- `HMAC`: the digest of the counter under the loaded key; the key is destroyed (R149, R143). -/
def execHmac (s : State) : Host.Outcome State Fault Refusal :=
  runCommand .hmac
    (fun r => .ok ({ r with
      dg := hmacSha1 r.k0 (be64 r.ctr), k0 := Vector.replicate 64 0, phase := .done }, 0)) s

end Sys2Proof.Machine
end

