-- ==== Sys2Proof/Machine/Base32.lean ====
section
/-! DEFINITION. The Base32 functions: the alphabet (R119), the group shape (R120), and the reference decoder on a whole
text (R121), against which the serial decoder `KCHAR` … `KEND` is stated to agree (R125). -/

namespace Sys2Proof.Machine

/-- The pad character '=' (R119). -/
def padChar : Byte := 0x3D

/-- `B32Val(c)`: the 5-bit value of a character of the alphabet, or none (R119). -/
def b32Val (c : Byte) : Option (BitVec 5) :=
  if 0x41 ≤ c ∧ c ≤ 0x5A then some ((c - 0x41).setWidth 5)
  else if 0x32 ≤ c ∧ c ≤ 0x37 then some ((c - 0x32 + 26).setWidth 5)
  else none

/-- `NBytes(p)`: the bytes a group with p pad characters carries, or none (R120). -/
def nBytes : Nat → Option Nat
  | 0 => some 5
  | 1 => some 4
  | 3 => some 3
  | 4 => some 2
  | 6 => some 1
  | _ => none

/-- The five bytes of a 40-bit group: bits 39:32, 31:24, 23:16, 15:8, 7:0 in that order (R120). -/
def groupBytes (acc : BitVec 40) : List Byte :=
  [acc.extractLsb' 32 8, acc.extractLsb' 24 8, acc.extractLsb' 16 8, acc.extractLsb' 8 8, acc.extractLsb' 0 8]

/-- The value of a character, 0 for one that has none (used on characters already checked). -/
def b32ValD (c : Byte) : Nat := ((b32Val c).map BitVec.toNat).getD 0

/-- `acc` of R121: the sum over i < d of `B32Val(grp[i])` · 2^(5 · (7 − i)). -/
def groupAcc (grp : List Byte) (d : Nat) : Nat :=
  ((List.range d).map fun i => b32ValD (grp.getD i 0) * 2 ^ (5 * (7 - i))).sum

/-- One group of R121: its bytes, or none for `InvalidKey`. -/
def b32Group (isLast : Bool) (grp : List Byte) : Option (List Byte) :=
  let d := (grp.takeWhile (· ≠ padChar)).length
  if (grp.drop d).any (· ≠ padChar) then none
  else if (grp.take d).any (fun c => b32Val c = none) then none
  else
    match nBytes (8 - d) with
    | none => none
    | some n =>
      if 0 < 8 - d ∧ !isLast then none
      else some ((groupBytes (BitVec.ofNat 40 (groupAcc grp d))).take n)

/-- The groups of R121, n of them, in order. -/
def b32Groups : Nat → List Byte → Option (List Byte)
  | 0, _ => some []
  | n + 1, text =>
    match b32Group (n = 0) (text.take 8), b32Groups n (text.drop 8) with
    | some out, some more => some (out ++ more)
    | _, _ => none

/-- `B32Decode(text)`: the key bytes, or none for `InvalidKey` (R121). -/
def b32Decode (text : List Byte) : Option (List Byte) :=
  if text.length % 8 ≠ 0 then none else b32Groups (text.length / 8) text

end Sys2Proof.Machine
end

