-- ==== Sys2Proof/Machine/Key.lean ====
section
/-! DEFINITION. Key loading: `KBYTE`, `KCHAR`, `KEND`, and the function `NormKey` they realise (41_key_loading.md). -/

namespace Sys2Proof.Machine

/-- `NormKey(k)`: the 64-byte HMAC key block of a key of any length (R116). -/
def normKey (k : List Byte) : Vector Byte 64 :=
  if k.length ≤ 64 then toReg 64 k else toReg 64 ((sha1 k).toList ++ rep 0x00 44)

/-- The rule of `KBYTE` (R118). -/
def kbyteRule (keyMax : Nat) (b : Byte) (r : Regs) : Effect :=
  match keyPush keyMax b r with
  | .error e => .error e
  | .ok r' => .ok ({ r' with phase := .keyRaw }, 0)

/-- `KBYTE b`: deliver one raw key byte (R118). -/
def execKbyte (b : Byte) (s : State) : Host.Outcome State Fault Refusal :=
  runCommand (.kbyte b) (kbyteRule s.cfg.keyMax b) s

/-- The eighth character of a group: its bytes are pushed in order, the decoder returns to the start of a group (R122). -/
def emitGroup (keyMax : Nat) (acc : BitVec 40) (pads : Nat) (r : Regs) : Effect :=
  match nBytes pads with
  | none => .error .invalidKey
  | some n =>
    match keyPushAll keyMax ((groupBytes acc).take n) r with
    | .error e => .error e
    | .ok r' =>
      .ok ({ r' with bend := decide (0 < pads), bacc := 0, bn := 0, bpad := 0, phase := .keyB32 }, 0)

/-- A character accepted into the group: `v` its value, `pads` the pad characters then in the group (R122). -/
def acceptChar (keyMax : Nat) (v : BitVec 5) (pads : Nat) (r : Regs) : Effect :=
  let acc := r.bacc * 32 + v.setWidth 40
  if r.bn.toNat < 7 then
    .ok ({ r with bacc := acc, bn := r.bn + 1, bpad := BitVec.ofNat 3 pads, phase := .keyB32 }, 0)
  else emitGroup keyMax acc pads r

/-- The rule of `KCHAR`, its checks in the order of the pseudocode (R122, R192 (5)). -/
def kcharRule (keyMax : Nat) (c : Byte) (r : Regs) : Effect :=
  if r.bend then .error .invalidKey
  else if c = padChar then acceptChar keyMax 0 (r.bpad.toNat + 1) r
  else
    match b32Val c with
    | none => .error .invalidKey
    | some v => if r.bpad ≠ 0 then .error .invalidKey else acceptChar keyMax v r.bpad.toNat r

/-- `KCHAR c`: deliver one character of the Base32 secret text (R122). -/
def execKchar (c : Byte) (s : State) : Host.Outcome State Fault Refusal :=
  runCommand (.kchar c) (kcharRule s.cfg.keyMax c) s

/-- The key block `KEND` leaves: a key of up to 64 bytes as it stands, a longer one's hash and then zeros (R123). -/
def closedKey (r : Regs) : Vector Byte 64 :=
  if 64 < r.klen.toNat then
    let tail := r.blk.toList.take (r.klen.toNat % 64)
    toReg 64 ((ser (finishHash r.h tail r.klen.toNat)).toList ++ rep 0x00 44)
  else r.k0

/-- The rule of `KEND` (R123). -/
def kendRule (r : Regs) : Effect :=
  if r.bn ≠ 0 then .error .invalidKey
  else
    .ok ({ r with
      k0 := closedKey r
      blk := Vector.replicate 64 0, h := Vector.replicate 5 0, klen := 0
      bacc := 0, bpad := 0, bend := false, phase := .keyed }, 0)

/-- `KEND`: close the key and normalise it (R123). -/
def execKend (s : State) : Host.Outcome State Fault Refusal :=
  runCommand .kend kendRule s

end Sys2Proof.Machine
end

