-- ==== Sys2Proof/Machine/Post.lean ====
section
/-! DEFINITION. HOTP post-processing: dynamic truncation, reduction and digits, and the commands `TRUNC`, `REDUCE`
(44_hotp_post.md). -/

namespace Sys2Proof.Machine

/-- The truncation offset: the low nibble of the last digest byte (R160). -/
def truncOffset (d : Vector Byte 20) : Nat := (d[19] &&& 0x0F).toNat

/-- The offset is 0 to 15, so the four bytes read lie inside the digest (R160). -/
theorem truncOffset_le (d : Vector Byte 20) : truncOffset d ≤ 15 := by
  simp only [truncOffset, BitVec.toNat_and]
  exact Nat.and_le_right

/-- `DynTrunc(d)`: the four bytes at the offset, big-endian, top bit cleared (R160). -/
def dynTrunc (d : Vector Byte 20) : BitVec 32 :=
  have ho := truncOffset_le d
  let o := truncOffset d
  u32be (d[o]'(by omega) &&& 0x7F) (d[o + 1]'(by omega)) (d[o + 2]'(by omega)) (d[o + 3]'(by omega))

/-- `TRUNC`: truncate the digest (R161). -/
def execTrunc (s : State) : Host.Outcome State Fault Refusal :=
  runCommand .trunc (fun r => .ok ({ r with tr := dynTrunc r.dg, tv := true }, 0)) s

/-- `Reduce(v)` = v mod 1000000 (R162). -/
def reduceCode (v : BitVec 32) : Nat := v.toNat % 1000000

/-- The ASCII code of decimal digit number i of r, 0 the most significant of six (R163). -/
def digit (r i : Nat) : Byte := BitVec.ofNat 8 (0x30 + r / 10 ^ (5 - i) % 10)

/-- `Digits(r)`: six ASCII digits, leading zeros kept (R163). -/
def digits (r : Nat) : Vector Byte 6 := #v[digit r 0, digit r 1, digit r 2, digit r 3, digit r 4, digit r 5]

/-- The rule of `REDUCE`: `SequenceError` when nothing has been truncated (R164). -/
def reduceRule (r : Regs) : Effect :=
  if r.tv then .ok ({ r with code := digits (reduceCode r.tr), cv := true }, 0) else .error .sequenceError

/-- `REDUCE`: reduce the truncated value and form the six digits (R164). -/
def execReduce (s : State) : Host.Outcome State Fault Refusal :=
  runCommand .reduce reduceRule s

end Sys2Proof.Machine
end

