-- ==== Sys2Proof/Machine/Dispatch.lean ====
section
/-! DEFINITION. One arm per command, each one direct call of its meaning. -/

namespace Sys2Proof.Machine

def exec (i : Instr) (s : State) : Host.Outcome State Fault Refusal :=
  match i with
  | .clr => Sys2Proof.Machine.execClr s
  | .rdst => Sys2Proof.Machine.execRdst s
  | .rderr => Sys2Proof.Machine.execRderr s
  | .kbyte b => Sys2Proof.Machine.execKbyte b s
  | .kchar c => Sys2Proof.Machine.execKchar c s
  | .kend => Sys2Proof.Machine.execKend s
  | .cbyte b => Sys2Proof.Machine.execCbyte b s
  | .hmac => Sys2Proof.Machine.execHmac s
  | .trunc => Sys2Proof.Machine.execTrunc s
  | .reduce => Sys2Proof.Machine.execReduce s
  | .rdb idx => Sys2Proof.Machine.execRdb idx s

end Sys2Proof.Machine
end

