-- ==== Sys2Proof/Machine/Step.lean ====
section
/-! DEFINITION. One step: the next thing the host does takes effect, completely, before the one after it (R58, R70). -/

namespace Sys2Proof.Machine

/-- One step of the machine. A command word is decoded and executed (R70), an undecodable one raises `IllegalCommand`
(R187); a reset puts every register at zero and returns no response (R215); with no command, nothing happens (R177, R216). -/
def step (s : State) : Host.Outcome State Fault Refusal :=
  match s.inbox with
  | [] => .next s
  | .reset :: rest => .next (clearRegs { s with inbox := rest })
  | .command w :: rest =>
    match decode w with
    | .ok i => exec i { s with inbox := rest }
    | .error _ => execIllegal { s with inbox := rest }

/-- The state in which the very next step runs the word `w`: it is the next command the host issues. -/
def State.withFetchWord (s : State) (nbits w : Nat) : State :=
  { s with inbox := .command (BitVec.ofNat 16 (w % 2 ^ nbits)) :: s.inbox }

end Sys2Proof.Machine
end

