-- ==== Sys2Proof/Machine/Assembler.lean ====
section
/-! DEFINITION. The assembler syntax of R90, one command per line, on lists of characters. It is a tool of the spec, not of
the engine; the model has it because R90 states what it emits. -/

namespace Sys2Proof.Machine

/-- The operand of a line (R90). -/
inductive AsmOperand where
  /-- No operand. -/
  | absent
  /-- A decimal or `0x` hexadecimal number. -/
  | number (n : Nat)
  /-- A quoted ASCII character; formats D only. -/
  | quoted (code : Nat)
  deriving DecidableEq, Repr

/-- The three formats of R71. -/
inductive Format where
  /-- No operand. -/
  | n
  /-- A data byte. -/
  | d
  /-- A window index. -/
  | x
  deriving DecidableEq, Repr

/-- The opcode and the format of a mnemonic in capitals (R73). -/
def mnemonicRow (m : List Char) : Option (Nat × Format) :=
  if m = ['C', 'L', 'R'] then some (0x01, .n)
  else if m = ['R', 'D', 'S', 'T'] then some (0x02, .n)
  else if m = ['R', 'D', 'E', 'R', 'R'] then some (0x03, .n)
  else if m = ['K', 'B', 'Y', 'T', 'E'] then some (0x12, .d)
  else if m = ['K', 'C', 'H', 'A', 'R'] then some (0x13, .d)
  else if m = ['K', 'E', 'N', 'D'] then some (0x14, .n)
  else if m = ['C', 'B', 'Y', 'T', 'E'] then some (0x20, .d)
  else if m = ['H', 'M', 'A', 'C'] then some (0x30, .n)
  else if m = ['T', 'R', 'U', 'N', 'C'] then some (0x40, .n)
  else if m = ['R', 'E', 'D', 'U', 'C', 'E'] then some (0x41, .n)
  else if m = ['R', 'D', 'B'] then some (0x50, .x)
  else none

/-- "The encoding of a line is `(op << 8) + operand`"; an operand outside the format's range, or any operand on a format N
mnemonic, is an assembly error, here `none` (R90). -/
def asmWord (m : List Char) (o : AsmOperand) : Option CmdWord :=
  match mnemonicRow m, o with
  | some (op, .n), .absent => some (BitVec.ofNat 16 (op * 256))
  | some (op, .d), .number v => if v ≤ 255 then some (BitVec.ofNat 16 (op * 256 + v)) else none
  | some (op, .d), .quoted v => if v ≤ 127 then some (BitVec.ofNat 16 (op * 256 + v)) else none
  | some (op, .x), .number v => if v ≤ 29 then some (BitVec.ofNat 16 (op * 256 + v)) else none
  | _, _ => none

/-- The value of a digit in a base of up to 16. -/
def digitVal (base : Nat) (c : Char) : Option Nat :=
  let v :=
    if 48 ≤ c.toNat ∧ c.toNat ≤ 57 then c.toNat - 48
    else if 97 ≤ c.toNat ∧ c.toNat ≤ 102 then c.toNat - 87
    else if 65 ≤ c.toNat ∧ c.toNat ≤ 70 then c.toNat - 55
    else base
  if v < base then some v else none

/-- The number the digits write, most significant first, from the value `acc` on. -/
def readDigits (base acc : Nat) : List Char → Option Nat
  | [] => some acc
  | c :: cs =>
    match digitVal base c with
    | some v => readDigits base (acc * base + v) cs
    | none => none

/-- An operand as written: nothing, a quoted character, a `0x` number, a decimal number (R90). -/
def readOperand : List Char → Option AsmOperand
  | [] => some .absent
  | ['\'', c, '\''] => some (.quoted c.toNat)
  | '0' :: 'x' :: c :: cs => (readDigits 16 0 (c :: cs)).map .number
  | c :: cs => (readDigits 10 0 (c :: cs)).map .number

/-- A blank between the words of a line. -/
def isBlank (c : Char) : Bool := c = ' ' || c = '\t'

/-- The line without its comment: `;` starts a comment, except as the quoted character (log entry 11). -/
def dropComment : List Char → List Char
  | '\'' :: c :: '\'' :: cs => '\'' :: c :: '\'' :: dropComment cs
  | ';' :: _ => []
  | c :: cs => c :: dropComment cs
  | [] => []

/-- The line without blanks at its end. -/
def trimEnd (cs : List Char) : List Char := (cs.reverse.dropWhile isBlank).reverse

/-- One line that holds a command: the mnemonic, blanks, the operand, a comment (R90). -/
def asmLine (line : List Char) : Option CmdWord :=
  let body := trimEnd ((dropComment line).dropWhile isBlank)
  let m := body.takeWhile (fun c => !isBlank c)
  match readOperand ((body.drop m.length).dropWhile isBlank) with
  | some o => asmWord m o
  | none => none

end Sys2Proof.Machine
end

