-- ==== Sys2Proof/Machine/Programs.lean ====
section
/-! DEFINITION. The named command sequences of R91 and what a host makes of the responses to a derivation (R198). They are
the host's, not the engine's: the engine sees their words only. -/

namespace Sys2Proof.Machine

/-- `KEYRAW b0 … b(n−1)`: the key bytes, then `KEND` (R91). -/
def keyRawCmds (k : List Byte) : List Instr := k.map .kbyte ++ [.kend]

/-- `KEYB32 "c0…c(n−1)"`: the characters, then `KEND` (R91). -/
def keyB32Cmds (text : List Byte) : List Instr := text.map .kchar ++ [.kend]

/-- `CTR64 v`: the eight bytes of v, most significant first (R91, R142). -/
def ctr64Cmds (v : BitVec 64) : List Instr :=
  [.cbyte (v.extractLsb' 56 8), .cbyte (v.extractLsb' 48 8), .cbyte (v.extractLsb' 40 8), .cbyte (v.extractLsb' 32 8),
   .cbyte (v.extractLsb' 24 8), .cbyte (v.extractLsb' 16 8), .cbyte (v.extractLsb' 8 8), .cbyte (v.extractLsb' 0 8)]

/-- The n read commands from window index `first` on. -/
def readCmds (first n : Nat) : List Instr := (List.range n).map fun k => .rdb (BitVec.ofNat 5 (first + k))

/-- `RDDIGEST`: `RDB 0` to `RDB 19` (R91). -/
def rdDigestCmds : List Instr := readCmds 0 20

/-- `RDTRUNC`: `RDB 20` to `RDB 23` (R91). -/
def rdTruncCmds : List Instr := readCmds 20 4

/-- `RDCODE`: `RDB 24` to `RDB 29` (R91). -/
def rdCodeCmds : List Instr := readCmds 24 6

/-- `HOTP "text" v` (R91). -/
def hotpCmds (text : List Byte) (v : BitVec 64) : List Instr :=
  [.clr] ++ keyB32Cmds text ++ ctr64Cmds v ++ [.hmac, .trunc, .reduce] ++ rdCodeCmds

/-- `time_step_start(t)` = t div 30: the host's duty for a TOTP derivation at epoch second t, never the engine's (R141). -/
def timeStepStart (t : BitVec 64) : BitVec 64 := t / 30

/-- `OTPAT "text" t`: `HOTP "text" (t div 30)`; the division is done by the assembler or host (R91). -/
def otpAtCmds (text : List Byte) (t : BitVec 64) : List Instr := hotpCmds text (timeStepStart t)

/-- The words a host sends for a command sequence. -/
def wordsOf (is : List Instr) : List CmdWord := is.map encode

/-- What a host makes of the responses to an `HOTP` sequence and of the error code `RDERR` then gives (R198): the six data
bytes of the last six responses when none has `FAULT` = 1; `InvalidKey` when one has and the code is 0x01; R198 names no
other result. -/
def derivationResult (rsps : List RspWord) (errc : Byte) : Option (Except Exc (List Byte)) :=
  if rsps.any rspFault then (if errc = Exc.invalidKey.code then some (.error .invalidKey) else none)
  else some (.ok ((rsps.drop (rsps.length - 6)).map rspData))

end Sys2Proof.Machine
end

