-- ==== Sys2Proof/Safety.lean ====
section
/-! DEFINITION. The terms claims are stated in: the invariants of R39, runs, what a host sees, and a run without faults. -/

namespace Sys2Proof.Machine

/-- Every register of the key path is zero. -/
def Regs.KeyPathZero (r : Regs) : Prop :=
  r.blk = Vector.replicate 64 0 ∧ r.h = Vector.replicate 5 0 ∧ r.klen = 0 ∧
    r.bacc = 0 ∧ r.bn = 0 ∧ r.bpad = 0 ∧ r.bend = false

/-- Every result register and validity flag is zero. -/
def Regs.ResultsZero (r : Regs) : Prop :=
  r.dg = Vector.replicate 20 0 ∧ r.tr = 0 ∧ r.code = Vector.replicate 6 0 ∧ r.tv = false ∧ r.cv = false

/-- A phase in which a key is being loaded or may be: `IDLE`, `KEY_RAW`, `KEY_B32`. -/
def Phase.loading (p : Phase) : Prop := p = .idle ∨ p = .keyRaw ∨ p = .keyB32

/-- The invariants of R39, by its item numbers. Item 1 (`PHASE` takes six values) is the type `Phase`. -/
structure Regs.Inv (keyMax : Nat) (r : Regs) : Prop where
  /-- Item 2, first half. -/
  error_iff : r.phase = .error ↔ r.errc ≠ 0
  /-- The values `ERRC` takes (R23). -/
  errc_codes : r.errc = 0x00 ∨ r.errc = 0x01 ∨ r.errc = 0x10 ∨ r.errc = 0x11 ∨ r.errc = 0x12
  /-- Item 2, second half. -/
  error_zero : r.phase = .error → r = { Regs.zero with phase := .error, errc := r.errc }
  /-- Item 3. -/
  idle_zero : r.phase = .idle → r = { Regs.zero with ctr := r.ctr }
  /-- Item 4. -/
  keyRaw : r.phase = .keyRaw →
    1 ≤ r.klen.toNat ∧ r.klen.toNat ≤ keyMax ∧ r.bacc = 0 ∧ r.bn = 0 ∧ r.bpad = 0 ∧ r.bend = false
  /-- Item 5. -/
  keyB32 : r.phase = .keyB32 →
    r.klen.toNat ≤ keyMax ∧ r.bn.toNat ≤ 7 ∧ r.bpad.toNat ≤ r.bn.toNat ∧ r.bacc.toNat < 2 ^ (5 * r.bn.toNat) ∧
      (r.bend = true → r.bn = 0) ∧ 1 ≤ r.klen.toNat + r.bn.toNat
  /-- Item 6. -/
  loading : r.phase.loading →
    (∀ i (hi : i < 64), r.klen.toNat ≤ i → r.k0[i] = 0) ∧
      (r.klen.toNat ≤ 64 → r.h = Vector.replicate 5 0 ∧ r.blk = Vector.replicate 64 0)
  /-- Item 7 (its second half is item 9). -/
  keyed : r.phase = .keyed → r.KeyPathZero
  /-- Item 8. -/
  done : r.phase = .done →
    r.k0 = Vector.replicate 64 0 ∧ r.KeyPathZero ∧ (r.cv = true → r.tv = true) ∧
      (r.tv = true → r.tr = dynTrunc r.dg) ∧ (r.cv = true → r.code = digits (reduceCode r.tr)) ∧
      r.tr.getLsbD 31 = false
  /-- `TR` is zero unless `TV` = 1 (R33), `CODE` unless `CV` = 1 (R34). -/
  unset_zero : (r.tv = false → r.tr = 0) ∧ (r.cv = false → r.code = Vector.replicate 6 0)
  /-- Item 9. -/
  notDone : r.phase ≠ .done → r.ResultsZero

/-- The invariant of the machine: a parameter in its range (R7) and R39. -/
def Inv (s : State) : Prop := s.cfg.Wf ∧ s.regs.Inv s.cfg.keyMax

/-- The state after a command that succeeded: new registers, response `0x0000 + data` (R72). -/
def afterOk (r : Regs) (data : Byte) (s : State) : State :=
  { s with regs := r, outbox := s.outbox ++ [data.setWidth 16] }

/-- The state after fault entry with this code: every other register zero, response 0x8000 (R190). -/
def afterFault (code : Byte) (s : State) : State :=
  { s with regs := { Regs.zero with phase := .error, errc := code }, outbox := s.outbox ++ [0x8000] }

/-- The state after a refused command: unchanged, response 0x8000 (R191). -/
def afterRefusal (s : State) : State := { s with outbox := s.outbox ++ [0x8000] }

/-- n steps, stopping at the first fault or refusal. -/
def runSteps : Nat → State → Host.Outcome State Fault Refusal
  | 0, s => .next s
  | n + 1, s =>
    match step s with
    | .next s' => runSteps n s'
    | .fault f => .fault f
    | .refused r => .refused r

/-- The host is about to issue the words `ws`, before anything else. -/
def issue (ws : List CmdWord) (s : State) : State := { s with inbox := ws.map .command ++ s.inbox }

/-- The outcome after the words `ws` and no other event. -/
def runWords (ws : List CmdWord) (s : State) : Host.Outcome State Fault Refusal := runSteps ws.length (issue ws s)

/-- The outcome after the commands `is`. -/
def runCmds (is : List Instr) (s : State) : Host.Outcome State Fault Refusal := runWords (wordsOf is) s

/-- The registers and responses after a command sequence that was run whole, `rsps` being its responses in order. -/
def EndsIn (is : List Instr) (s : State) (r : Regs) (rsps : List RspWord) : Prop :=
  runCmds is s = .next { s with regs := r, outbox := s.outbox ++ rsps }

/-- A safe run for a host: no response so far has `FAULT` = 1 and the engine is not in `ERROR`. -/
def FaultFree (s : State) : Prop := s.regs.phase ≠ .error ∧ ∀ rsp ∈ s.outbox, rspFault rsp = false

/-- What a host sees of the registers whatever the key and counter bytes were: `PHASE`, `ERRC`, `TV`, `CV` (R36). -/
def publicView (r : Regs) : Phase × Byte × Bool × Bool := (r.phase, r.errc, r.tv, r.cv)

/-- Two words that differ at most in the immediate of a `KBYTE` or of a `CBYTE` (R36). -/
def SameButSecret (w v : CmdWord) : Prop :=
  w = v ∨ (opField w = opField v ∧ (opField w = 0x12 ∨ opField w = 0x20))

end Sys2Proof.Machine
end

