-- ==== Sys2Proof/Certificates/Slice0/Obligations.lean ====
section
/-! DEFINITION. What the provers are asked to prove about the model, each statement named for what it says. -/

open Sys2Proof Sys2Proof.Machine

/-! ### Encoding -/

/-- One word of each row, written out from R73, decodes to its command. -/
def Obligations.DecodesSampleWords : Prop :=
  decode 0b0000000100000000 = .ok .clr ∧ decode 0b0000001000000000 = .ok .rdst ∧
  decode 0b0000001100000000 = .ok .rderr ∧ decode 0b0001001000001011 = .ok (.kbyte 0x0B) ∧
  decode 0b0001001101000001 = .ok (.kchar 0x41) ∧ decode 0b0001010000000000 = .ok .kend ∧
  decode 0b0010000010100111 = .ok (.cbyte 0xA7) ∧ decode 0b0011000000000000 = .ok .hmac ∧
  decode 0b0100000000000000 = .ok .trunc ∧ decode 0b0100000100000000 = .ok .reduce ∧
  decode 0b0101000000011101 = .ok (.rdb 29)

/-- Decoding the word of a well-formed command gives the command back, every operand at every value (R73, R74). -/
def Obligations.DecodeOfEncodeIsTheCommand : Prop :=
  ∀ i : Instr, i.wellFormed = true → decode (encode i) = .ok i

/-- A word that decodes is the word of the command it decodes to, which is well-formed: each word has one meaning. -/
def Obligations.EncodeOfDecodeIsTheWord : Prop :=
  ∀ (w : CmdWord) (i : Instr), decode w = .ok i → encode i = w ∧ i.wellFormed = true

/-- The illegal words are exactly the unassigned opcode bytes with any low byte, the format N opcodes with a nonzero low byte
and 0x50 with a low byte of 30 to 255; in every phase but `ERROR` each of them takes the fault `IllegalCommand`, in `ERROR` it
is refused (R75, R187). -/
def Obligations.ReservedWordsRaiseIllegalCommand : Prop :=
  ∀ (s : State) (w : CmdWord) (rest : List HostEvent),
    s.inbox = .command w :: rest →
    let op := w.toNat / 256
    let low := w.toNat % 256
    let reserved :=
      op ∉ [0x01, 0x02, 0x03, 0x12, 0x13, 0x14, 0x20, 0x30, 0x40, 0x41, 0x50] ∨
      (op ∈ [0x01, 0x02, 0x03, 0x14, 0x30, 0x40, 0x41] ∧ low ≠ 0) ∨ (op = 0x50 ∧ 30 ≤ low)
    (reserved → s.regs.phase ≠ .error → step s = .next (afterFault 0x10 { s with inbox := rest })) ∧
      (reserved → s.regs.phase = .error → step s = .next (afterRefusal { s with inbox := rest })) ∧
      ((∃ e, decode w = .error e) ↔ reserved)

/-! ### The step -/

/-- When the next word of the host decodes to a command, the step is that command's meaning on the state without the word. -/
def Obligations.StepRunsTheDecodedCommand : Prop :=
  ∀ (s : State) (w : CmdWord) (rest : List HostEvent) (i : Instr),
    s.inbox = .command w :: rest → decode w = .ok i → step s = exec i { s with inbox := rest }

/-- With no command nothing happens, for any number of steps (R177, R216). -/
def Obligations.WaitingHasNoEffect : Prop :=
  ∀ (n : Nat) (s : State), s.inbox = [] → runSteps n s = .next s

/-- A step always answers a next state: the machine never stops (R70; 93_implementation_defined.md Part 1). -/
def Obligations.StepIsTotal : Prop :=
  ∀ s : State, ∃ t, step s = .next t

/-- Every command answers with exactly one response and leaves the host's coming commands and the parameter alone. The
response is `0x0000 + data` or exactly 0x8000; the data is 0x00 for every command that reads nothing; a response 0x8000 is
given exactly when the engine is then in `ERROR`, but for `RDST` and `RDERR`, which never fault (R72). -/
def Obligations.EveryCommandAnswersOnce : Prop :=
  ∀ (i : Instr) (s : State), ∃ (t : State) (rsp : RspWord),
    exec i s = .next t ∧ t.outbox = s.outbox ++ [rsp] ∧ t.inbox = s.inbox ∧ t.cfg = s.cfg ∧
      (rsp = 0x8000 ∨ rsp.toNat ≤ 0xFF) ∧
      ((i ≠ .rdst ∧ i ≠ .rderr ∧ ∀ idx, i ≠ .rdb idx) → rsp = 0x0000 ∨ rsp = 0x8000) ∧
      ((i ≠ .rdst ∧ i ≠ .rderr) → (rsp = 0x8000 ↔ t.regs.phase = .error)) ∧
      ((i = .rdst ∨ i = .rderr) → rsp ≠ 0x8000)

/-! ### The meaning of each command -/

/-- `CLR`, word 0x0100, gives `S0` in every phase, `ERROR` included (R173). -/
def Obligations.ClrGivesTheZeroState : Prop :=
  encode .clr = 0x0100 ∧ ∀ s : State, exec .clr s = .next (afterOk Regs.zero 0 s)

/-- `RDST`, word 0x0200, answers `PHASE + 8·TV + 16·CV` in every phase and changes nothing; under the invariant the data is
one of eight values (R174). -/
def Obligations.RdstAnswersTheStatus : Prop :=
  encode .rdst = 0x0200 ∧ ∀ s : State, ∃ data : Byte,
    exec .rdst s = .next (afterOk s.regs data s) ∧
      data.toNat =
        (match s.regs.phase with
          | .idle => 0 | .keyRaw => 1 | .keyB32 => 2 | .keyed => 3 | .done => 4 | .error => 7) +
        8 * (if s.regs.tv then 1 else 0) + 16 * (if s.regs.cv then 1 else 0) ∧
      (Inv s → data ∈ [0x00, 0x01, 0x02, 0x03, 0x04, 0x0C, 0x1C, 0x07])

/-- `RDERR`, word 0x0300, answers `ERRC` in every phase and changes nothing (R175); under the invariant the code is 0x00 outside `ERROR` and
one of the four codes in it. -/
def Obligations.RderrAnswersTheCode : Prop :=
  encode .rderr = 0x0300 ∧ ∀ s : State, exec .rderr s = .next (afterOk s.regs s.regs.errc s) ∧
    (Inv s → (s.regs.phase ≠ .error → s.regs.errc = 0x00) ∧
      (s.regs.phase = .error → s.regs.errc ∈ [0x01, 0x10, 0x11, 0x12]))

/-- `KBYTE b`, word 0x1200 + b (R118), through `KeyPush` (R117): one of the first 64 key bytes goes to `K0[KLEN]`; a later one goes to
`BLK[KLEN mod 64]`, after `K0` was compressed if it is the 65th, and a filled block is compressed into `H`. A byte beyond
`KEYMAX` raises `KeyOverflow`, a wrong phase `SequenceError`, and in `ERROR` the command is refused. -/
def Obligations.KbytePushesOneKeyByte : Prop :=
  ∀ (s : State) (b : Byte), (encode (.kbyte b)).toNat = 0x1200 + b.toNat ∧
    ((s.regs.phase = .idle ∨ s.regs.phase = .keyRaw) → s.regs.klen.toNat ≠ s.cfg.keyMax →
      (∀ h : s.regs.klen.toNat < 64,
        exec (.kbyte b) s = .next (afterOk { s.regs with
          k0 := s.regs.k0.set s.regs.klen.toNat b h, klen := s.regs.klen + 1, phase := .keyRaw } 0 s)) ∧
      (64 ≤ s.regs.klen.toNat → ∀ h : s.regs.klen.toNat % 64 < 64,
        let hc := if s.regs.klen.toNat = 64 then compress iv s.regs.k0.toList else s.regs.h
        let blk := s.regs.blk.set (s.regs.klen.toNat % 64) b h
        exec (.kbyte b) s = .next (afterOk { s.regs with
          blk := blk, h := if s.regs.klen.toNat % 64 = 63 then compress hc blk.toList else hc,
          klen := s.regs.klen + 1, phase := .keyRaw } 0 s))) ∧
    ((s.regs.phase = .idle ∨ s.regs.phase = .keyRaw) → s.regs.klen.toNat = s.cfg.keyMax →
      exec (.kbyte b) s = .next (afterFault 0x12 s)) ∧
    ((s.regs.phase = .keyB32 ∨ s.regs.phase = .keyed ∨ s.regs.phase = .done) →
      exec (.kbyte b) s = .next (afterFault 0x11 s)) ∧
    (s.regs.phase = .error → exec (.kbyte b) s = .next (afterRefusal s))

/-- `KCHAR c`, word 0x1300 + c, before the eighth character of a group (R122): a character of the alphabet shifts its value into `BACC`, a pad
character shifts in 00000 and is counted in `BPAD`; `BN` counts both. -/
def Obligations.KcharCollectsTheGroup : Prop :=
  ∀ (s : State) (c : Byte), (encode (.kchar c)).toNat = 0x1300 + c.toNat ∧
    ((s.regs.phase = .idle ∨ s.regs.phase = .keyB32) → s.regs.bend = false → s.regs.bn.toNat < 7 →
      (∀ v : BitVec 5, b32Val c = some v → s.regs.bpad = 0 →
        exec (.kchar c) s = .next (afterOk { s.regs with
          bacc := s.regs.bacc * 32 + v.setWidth 40, bn := s.regs.bn + 1, phase := .keyB32 } 0 s)) ∧
      (c = 0x3D →
        exec (.kchar c) s = .next (afterOk { s.regs with
          bacc := s.regs.bacc * 32, bn := s.regs.bn + 1, bpad := s.regs.bpad + 1, phase := .keyB32 } 0 s)))

/-- `KCHAR` as the eighth character of a group (R122): the group's bytes, five for no pad character and 4, 3, 2 or 1 for 1, 3,
4 or 6 of them, are pushed in order; the decoder returns to the start of a group, `BEND` is set after a padded group. Only
`K0`, `BLK`, `H` and `KLEN` change by the pushes, and while the key is not longer than 64 bytes they land in `K0`. -/
def Obligations.KcharEmitsTheGroup : Prop :=
  ∀ (s : State) (c : Byte) (v : BitVec 5) (pads n : Nat),
    s.cfg.Wf → (s.regs.phase = .idle ∨ s.regs.phase = .keyB32) → s.regs.bend = false → s.regs.bn = 7 →
    ((c = 0x3D ∧ v = 0 ∧ pads = s.regs.bpad.toNat + 1) ∨ (b32Val c = some v ∧ s.regs.bpad = 0 ∧ pads = 0)) →
    (pads, n) ∈ [(0, 5), (1, 4), (3, 3), (4, 2), (6, 1)] → s.regs.klen.toNat + n ≤ s.cfg.keyMax →
    let acc := s.regs.bacc * 32 + v.setWidth 40
    ∃ r : Regs,
      keyPushAll s.cfg.keyMax ((groupBytes acc).take n) s.regs = .ok r ∧
      exec (.kchar c) s = .next (afterOk { r with
        bend := decide (0 < pads), bacc := 0, bn := 0, bpad := 0, phase := .keyB32 } 0 s) ∧
      { r with k0 := s.regs.k0, blk := s.regs.blk, h := s.regs.h, klen := s.regs.klen } = s.regs ∧
      r.klen.toNat = s.regs.klen.toNat + n ∧
      (s.regs.klen.toNat + n ≤ 64 →
        r.blk = s.regs.blk ∧ r.h = s.regs.h ∧
        (∀ i (_ : i < n) (hi : s.regs.klen.toNat + i < 64),
          (r.k0[s.regs.klen.toNat + i]).toNat = acc.toNat / 2 ^ (32 - 8 * i) % 256) ∧
        (∀ j (hj : j < 64), (j < s.regs.klen.toNat ∨ s.regs.klen.toNat + n ≤ j) → r.k0[j] = s.regs.k0[j]))

/-- The order of the faults of `KCHAR` (R192): a wrong phase is `SequenceError` whatever the character; in a legal phase every
Base32 defect comes before `KeyOverflow`, which is raised when the group's bytes do not fit below `KEYMAX` (R189). -/
def Obligations.KcharFaultsInOrder : Prop :=
  ∀ (s : State) (c : Byte),
    ((s.regs.phase = .keyRaw ∨ s.regs.phase = .keyed ∨ s.regs.phase = .done) →
      exec (.kchar c) s = .next (afterFault 0x11 s)) ∧
    (s.regs.phase = .error → exec (.kchar c) s = .next (afterRefusal s)) ∧
    (∀ pads n : Nat,
      s.cfg.Wf → (s.regs.phase = .idle ∨ s.regs.phase = .keyB32) → s.regs.bend = false → s.regs.bn = 7 →
      ((c = 0x3D ∧ pads = s.regs.bpad.toNat + 1) ∨ ((∃ v, b32Val c = some v) ∧ s.regs.bpad = 0 ∧ pads = 0)) →
      s.regs.klen.toNat ≤ s.cfg.keyMax → s.cfg.keyMax < s.regs.klen.toNat + n →
      ((pads, n) ∈ [(0, 5), (1, 4), (3, 3), (4, 2), (6, 1)] → exec (.kchar c) s = .next (afterFault 0x12 s)) ∧
      (pads ∈ [2, 5, 7, 8] → exec (.kchar c) s = .next (afterFault 0x01 s)))

/-- `InvalidKey` is raised in exactly the five situations of R186: a character outside the alphabet, a data character after a
pad character of its group, any character after a padded group, an eighth character that makes the pad count 2, 5, 7 or 8,
and `KEND` inside a group. -/
def Obligations.InvalidKeyInExactlyFiveSituations : Prop :=
  ∀ (i : Instr) (s : State), s.regs.phase ≠ .error →
    let cause :=
      (∃ c : Byte, i = .kchar c ∧ (s.regs.phase = .idle ∨ s.regs.phase = .keyB32) ∧
        ((c ≠ 0x3D ∧ b32Val c = none) ∨ (b32Val c ≠ none ∧ 0 < s.regs.bpad.toNat) ∨ s.regs.bend = true ∨
          (s.regs.bn = 7 ∧ c = 0x3D ∧ s.regs.bpad.toNat + 1 ∈ [2, 5, 7, 8]))) ∨
      (i = .kend ∧ s.regs.phase.loading ∧ s.regs.bn ≠ 0)
    (cause → exec i s = .next (afterFault 0x01 s)) ∧
      ((∃ t, exec i s = .next t ∧ t.regs.phase = .error ∧ t.regs.errc = 0x01) → cause)

/-- `KEND`, word 0x1400 (R123): a key of up to 64 bytes stays in `K0` as it stands; a longer one is hashed to its end and `K0` becomes the
20-byte hash and 44 zeros. The whole key path is zeroed, `CTR` and the results are not touched. -/
def Obligations.KendClosesTheKey : Prop :=
  encode .kend = 0x1400 ∧ ∀ s : State,
    (s.regs.phase.loading → s.regs.bn = 0 →
      ∃ k0 : Vector Byte 64,
        exec .kend s = .next (afterOk { s.regs with
          k0 := k0, blk := Vector.replicate 64 0, h := Vector.replicate 5 0, klen := 0,
          bacc := 0, bpad := 0, bend := false, phase := .keyed } 0 s) ∧
        (s.regs.klen.toNat ≤ 64 → k0 = s.regs.k0) ∧
        (64 < s.regs.klen.toNat →
          k0.toList =
            (ser ((finalBlocks (s.regs.blk.toList.take (s.regs.klen.toNat % 64)) s.regs.klen.toNat).foldl
              compress s.regs.h)).toList ++ List.replicate 44 0)) ∧
    (s.regs.phase.loading → s.regs.bn ≠ 0 → exec .kend s = .next (afterFault 0x01 s)) ∧
    ((s.regs.phase = .keyed ∨ s.regs.phase = .done) → exec .kend s = .next (afterFault 0x11 s)) ∧
    (s.regs.phase = .error → exec .kend s = .next (afterRefusal s))

/-- `CBYTE b`, word 0x2000 + b (R140): `CTR` becomes (`CTR` · 256 + b) mod 2^64 in the four legal phases and nothing else changes. -/
def Obligations.CbyteShiftsTheCounter : Prop :=
  ∀ (s : State) (b : Byte), (encode (.cbyte b)).toNat = 0x2000 + b.toNat ∧
    (s.regs.phase ≠ .done → s.regs.phase ≠ .error →
      ∃ c : BitVec 64, c.toNat = (s.regs.ctr.toNat * 256 + b.toNat) % 2 ^ 64 ∧
        exec (.cbyte b) s = .next (afterOk { s.regs with ctr := c } 0 s)) ∧
    (s.regs.phase = .done → exec (.cbyte b) s = .next (afterFault 0x11 s)) ∧
    (s.regs.phase = .error → exec (.cbyte b) s = .next (afterRefusal s))

/-- `HMAC`, word 0x3000 (R149): in `KEYED` the digest of `be64(CTR)` under `K0` goes to `DG`, `K0` becomes zero, the phase `DONE`. -/
def Obligations.HmacMakesTheDigest : Prop :=
  encode .hmac = 0x3000 ∧ ∀ s : State,
    (s.regs.phase = .keyed →
      exec .hmac s = .next (afterOk { s.regs with
        dg := hmacSha1 s.regs.k0 (be64 s.regs.ctr), k0 := Vector.replicate 64 0, phase := .done } 0 s)) ∧
    ((s.regs.phase.loading ∨ s.regs.phase = .done) → exec .hmac s = .next (afterFault 0x11 s)) ∧
    (s.regs.phase = .error → exec .hmac s = .next (afterRefusal s))

/-- `TRUNC`, word 0x4000 (R161): in `DONE` the truncation of the digest goes to `TR` and `TV` is set; nothing else changes. -/
def Obligations.TruncWritesTheTruncation : Prop :=
  encode .trunc = 0x4000 ∧ ∀ s : State,
    (s.regs.phase = .done → exec .trunc s = .next (afterOk { s.regs with tr := dynTrunc s.regs.dg, tv := true } 0 s)) ∧
    ((s.regs.phase.loading ∨ s.regs.phase = .keyed) → exec .trunc s = .next (afterFault 0x11 s)) ∧
    (s.regs.phase = .error → exec .trunc s = .next (afterRefusal s))

/-- `REDUCE`, word 0x4100 (R164): in `DONE` with `TV` = 1 the six ASCII digits of `TR` mod 10^6, most significant first, go to `CODE` and
`CV` is set; with `TV` = 0, or in another phase, it raises `SequenceError`. -/
def Obligations.ReduceWritesTheDigits : Prop :=
  encode .reduce = 0x4100 ∧ ∀ s : State,
    (s.regs.phase = .done → s.regs.tv = true →
      ∃ code : Vector Byte 6,
        exec .reduce s = .next (afterOk { s.regs with code := code, cv := true } 0 s) ∧
        ∀ i (hi : i < 6), (code[i]).toNat = 0x30 + s.regs.tr.toNat % 1000000 / 10 ^ (5 - i) % 10) ∧
    (s.regs.phase = .done → s.regs.tv = false → exec .reduce s = .next (afterFault 0x11 s)) ∧
    ((s.regs.phase.loading ∨ s.regs.phase = .keyed) → exec .reduce s = .next (afterFault 0x11 s)) ∧
    (s.regs.phase = .error → exec .reduce s = .next (afterRefusal s))

/-- `RDB i`, word 0x5000 + i (R176): the addressed byte of `DG`, of `TR` (20 the most significant) or of `CODE` when it has been produced, with no
register changed; `SequenceError` when it has not; refused in `ERROR`. -/
def Obligations.RdbReadsTheWindow : Prop :=
  ∀ (s : State) (idx : BitVec 5), idx.toNat ≤ 29 → (encode (.rdb idx)).toNat = 0x5000 + idx.toNat ∧
    (s.regs.phase = .done →
      (∀ h : idx.toNat < 20, exec (.rdb idx) s = .next (afterOk s.regs s.regs.dg[idx.toNat] s)) ∧
      (20 ≤ idx.toNat → idx.toNat ≤ 23 → s.regs.tv = true →
        ∃ data : Byte, data.toNat = s.regs.tr.toNat / 2 ^ (8 * (23 - idx.toNat)) % 256 ∧
          exec (.rdb idx) s = .next (afterOk s.regs data s)) ∧
      (20 ≤ idx.toNat → idx.toNat ≤ 23 → s.regs.tv = false → exec (.rdb idx) s = .next (afterFault 0x11 s)) ∧
      (24 ≤ idx.toNat → s.regs.cv = true → ∀ h : idx.toNat - 24 < 6,
        exec (.rdb idx) s = .next (afterOk s.regs s.regs.code[idx.toNat - 24] s)) ∧
      (24 ≤ idx.toNat → s.regs.cv = false → exec (.rdb idx) s = .next (afterFault 0x11 s))) ∧
    ((s.regs.phase.loading ∨ s.regs.phase = .keyed) → exec (.rdb idx) s = .next (afterFault 0x11 s)) ∧
    (s.regs.phase = .error → exec (.rdb idx) s = .next (afterRefusal s))

/-- The model's choice for a term that is no command (log entry 8): `RDB` with the reserved index 30 or 31 takes the fault
`IllegalCommand`, and is refused in `ERROR`, as its word would be (R50, R187, R191). -/
def Obligations.ReservedIndexIsIllegal : Prop :=
  ∀ (s : State) (idx : BitVec 5), 30 ≤ idx.toNat →
    (s.regs.phase ≠ .error → exec (.rdb idx) s = .next (afterFault 0x10 s)) ∧
    (s.regs.phase = .error → exec (.rdb idx) s = .next (afterRefusal s))

/-! ### The phase ERROR, reset -/

/-- In phase `ERROR` only the words of `CLR`, `RDST` and `RDERR` act; every other word, legal or illegal, changes no register
and is answered 0x8000 (R191). -/
def Obligations.ErrorPhaseRefuses : Prop :=
  ∀ (s : State) (w : CmdWord) (rest : List HostEvent),
    Inv s → s.regs.phase = .error → s.inbox = .command w :: rest →
    let s1 := { s with inbox := rest }
    (w = 0x0100 → step s = .next (afterOk Regs.zero 0 s1)) ∧
    (w = 0x0200 → step s = .next (afterOk s.regs 0x07 s1)) ∧
    (w = 0x0300 → step s = .next (afterOk s.regs s.regs.errc s1)) ∧
    (w ≠ 0x0100 → w ≠ 0x0200 → w ≠ 0x0300 → step s = .next (afterRefusal s1))

/-- After reset every register of R20 is zero (R38). -/
def Obligations.ResetRegistersAreZero : Prop :=
  let r := State.reset.regs
  r.phase = .idle ∧ r.errc = 0x00 ∧ r.tv = false ∧ r.cv = false ∧ r.bend = false ∧
    r.k0.toList = List.replicate 64 0 ∧ r.blk.toList = List.replicate 64 0 ∧ r.h.toList = List.replicate 5 0 ∧
    r.klen = 0 ∧ r.bacc = 0 ∧ r.bn = 0 ∧ r.bpad = 0 ∧ r.ctr = 0 ∧ r.dg.toList = List.replicate 20 0 ∧
    r.tr = 0 ∧ r.code.toList = List.replicate 6 0

/-- Reset, in whatever phase it occurs, puts every register at zero and gives no response; `CLR` has the same effect on the
registers (R215). -/
def Obligations.ResetZeroesAndIsSilent : Prop :=
  ∀ (s : State) (rest : List HostEvent), s.inbox = .reset :: rest →
    step s = .next { s with regs := Regs.zero, inbox := rest } ∧
    ∃ t, exec .clr s = .next t ∧ t.regs = Regs.zero

/-! ### Frames: what a command that did not fault leaves unchanged -/

/-- `RDST`, `RDERR` and a successful `RDB` change no register, hence no byte of the window (R55). -/
def Obligations.ReadsChangeNothing : Prop :=
  ∀ (s t : State),
    (exec .rdst s = .next t → t.regs = s.regs) ∧
    (exec .rderr s = .next t → t.regs = s.regs) ∧
    (∀ idx, exec (.rdb idx) s = .next t → t.regs.phase ≠ .error → t.regs = s.regs)

/-- `KBYTE`, `KCHAR` and `KEND` leave `CTR`, `ERRC`, the results, their flags and every byte of the window alone; `KBYTE` also
leaves the Base32 decoder alone, and `KEND` leaves `BN` alone. -/
def Obligations.KeyCommandsFrame : Prop :=
  ∀ (i : Instr) (s t : State),
    ((∃ b, i = .kbyte b) ∨ (∃ c, i = .kchar c) ∨ i = .kend) →
    exec i s = .next t → t.regs.phase ≠ .error →
      t.regs.ctr = s.regs.ctr ∧ t.regs.errc = s.regs.errc ∧ t.regs.tv = s.regs.tv ∧ t.regs.cv = s.regs.cv ∧
      t.regs.dg = s.regs.dg ∧ t.regs.tr = s.regs.tr ∧ t.regs.code = s.regs.code ∧
      (∀ a, windowByte t.regs a = windowByte s.regs a) ∧
      ((∃ b, i = .kbyte b) → t.regs.bacc = s.regs.bacc ∧ t.regs.bn = s.regs.bn ∧ t.regs.bpad = s.regs.bpad ∧
        t.regs.bend = s.regs.bend) ∧
      (i = .kend → t.regs.bn = s.regs.bn)

/-- `CBYTE` leaves every register but `CTR`, and every byte of the window, alone (R140). -/
def Obligations.CounterFrame : Prop :=
  ∀ (b : Byte) (s t : State), exec (.cbyte b) s = .next t → t.regs.phase ≠ .error →
    { t.regs with ctr := s.regs.ctr } = s.regs ∧ ∀ a, windowByte t.regs a = windowByte s.regs a

/-- `HMAC` leaves every register but `DG`, `K0` and `PHASE`, and every window byte from 20 on, alone; `TRUNC` every register
but `TR` and `TV`, and every window byte outside 20 to 23; `REDUCE` every register but `CODE` and `CV`, and every window byte
outside 24 to 29 (R149, R161, R164, R51). -/
def Obligations.ComputeCommandsFrame : Prop :=
  ∀ (s t : State), t.regs.phase ≠ .error →
    (exec .hmac s = .next t →
      { t.regs with dg := s.regs.dg, k0 := s.regs.k0, phase := s.regs.phase } = s.regs ∧
        ∀ a, 20 ≤ a → windowByte t.regs a = windowByte s.regs a) ∧
    (exec .trunc s = .next t →
      { t.regs with tr := s.regs.tr, tv := s.regs.tv } = s.regs ∧
        ∀ a, a < 20 ∨ 24 ≤ a → windowByte t.regs a = windowByte s.regs a) ∧
    (exec .reduce s = .next t →
      { t.regs with code := s.regs.code, cv := s.regs.cv } = s.regs ∧
        ∀ a, a < 24 ∨ 30 ≤ a → windowByte t.regs a = windowByte s.regs a)

/-! ### Rules about the whole machine -/

/-- The invariant of R39, with the parameter in its range, holds at reset. -/
def Obligations.InvariantHoldsAtReset : Prop := Inv State.reset

/-- Every step, whatever the host does, keeps the invariants of R39; so they hold after any events from reset. -/
def Obligations.EveryStepKeepsTheInvariant : Prop :=
  (∀ s t : State, Inv s → step s = .next t → Inv t) ∧
  ∀ (n : Nat) (events : List HostEvent) (t : State),
    runSteps n { State.reset with inbox := events } = .next t → Inv t

/-- The phase changes only as the table of R177 says; every other change is impossible. -/
def Obligations.PhaseChangesOnlyByTheTable : Prop :=
  ∀ s t : State, step s = .next t → t.regs.phase ≠ s.regs.phase →
    ∃ (e : HostEvent) (rest : List HostEvent), s.inbox = e :: rest ∧
      ((t.regs.phase = .idle ∧ (e = .reset ∨ e = .command 0x0100)) ∨
       ∃ w : CmdWord, e = .command w ∧
        ((t.regs.phase = .keyRaw ∧ s.regs.phase = .idle ∧ opField w = 0x12 ∧ s.regs.klen.toNat ≠ s.cfg.keyMax) ∨
         (t.regs.phase = .keyB32 ∧ s.regs.phase = .idle ∧ opField w = 0x13) ∨
         (t.regs.phase = .keyed ∧ s.regs.phase.loading ∧ w = 0x1400 ∧ s.regs.bn = 0) ∨
         (t.regs.phase = .done ∧ s.regs.phase = .keyed ∧ w = 0x3000) ∨
         (t.regs.phase = .error ∧ ∃ code : Byte, t = afterFault code { s with inbox := rest })))

/-- The law of R36: two command sequences that differ only in the immediates of `KBYTE` and `CBYTE` get, from the same state,
the same responses to every command that is no `RDB`, and leave the same `PHASE`, `ERRC`, `TV` and `CV`. (Sequences of every
length, so after every command.) -/
def Obligations.SecretBytesDoNotShow : Prop :=
  ∀ (s : State) (ws vs : List CmdWord), List.Forall₂ SameButSecret ws vs →
    ∃ (t u : State) (rs qs : List RspWord),
      runWords ws s = .next t ∧ runWords vs s = .next u ∧
      publicView t.regs = publicView u.regs ∧
      t.outbox = s.outbox ++ rs ∧ u.outbox = s.outbox ++ qs ∧ rs.length = ws.length ∧ qs.length = vs.length ∧
      ∀ k (h : k < ws.length), opField ws[k] ≠ 0x50 → rs[k]? = qs[k]?

/-- The registers of the key path and the counter have no read path: on two states that agree in the registers a host may
read, a command that faults on neither gets the same response (R199, R36). -/
def Obligations.HiddenRegistersAreNeverRead : Prop :=
  ∀ (i : Instr) (s u s' u' : State),
    publicView s.regs = publicView u.regs → s.regs.dg = u.regs.dg → s.regs.tr = u.regs.tr →
    s.regs.code = u.regs.code → s.outbox = u.outbox →
    exec i s = .next s' → exec i u = .next u' → (s'.regs.phase = .error ↔ u'.regs.phase = .error) →
    s'.outbox = u'.outbox

/-! ### The datapath functions -/

/-- The message schedule (R99): the sixteen words, then each word the rotation by 1 of the xor of the words 3, 8, 14 and 16
places before it, to eighty. -/
def Obligations.MessageScheduleRecurrence : Prop :=
  ∀ m : List Word, m.length = 16 →
    (schedule m).length = 80 ∧ (schedule m).take 16 = m ∧
    ∀ t, 16 ≤ t → t < 80 →
      (schedule m).getD t 0 =
        ((schedule m).getD (t - 3) 0 ^^^ (schedule m).getD (t - 8) 0 ^^^ (schedule m).getD (t - 14) 0 ^^^
          (schedule m).getD (t - 16) 0).rotateLeft 1

/-- The final blocks (R102): one block for a tail of up to 55 bytes, else two, each of 64 bytes; together the tail, the byte
0x80, zeros, and the length in bits as eight bytes, most significant first. -/
def Obligations.FinalBlocksPadTheMessage : Prop :=
  ∀ (tail : List Byte) (len : Nat), tail.length ≤ 63 → len < 2 ^ 61 →
    (finalBlocks tail len).length = (if tail.length ≤ 55 then 1 else 2) ∧
    (∀ b ∈ finalBlocks tail len, b.length = 64) ∧
    ∃ (zeros : Nat) (size : List Byte),
      (finalBlocks tail len).flatten = tail ++ [0x80] ++ List.replicate zeros 0x00 ++ size ∧
      size.length = 8 ∧ size.foldl (fun n b => n * 256 + b.toNat) 0 = 8 * len

/-- After n key bytes were pushed into an empty key (R117): up to 64 bytes stand in `K0`, followed by zeros; of a longer key,
`K0` keeps the first 64 bytes, `H` is the chaining value after its complete blocks and `BLK` begins with the bytes after
them. -/
def Obligations.KeyPushAccumulatesTheKey : Prop :=
  ∀ (keyMax : Nat) (k : List Byte), 64 ≤ keyMax → keyMax ≤ 2 ^ 61 - 1 → k.length ≤ keyMax →
    ∃ r : Regs, keyPushAll keyMax k Regs.zero = .ok r ∧ r.klen.toNat = k.length ∧
      { r with k0 := Regs.zero.k0, blk := Regs.zero.blk, h := Regs.zero.h, klen := 0 } = Regs.zero ∧
      r.k0 = toReg 64 (k.take 64) ∧
      (k.length ≤ 64 → r.h = Vector.replicate 5 0 ∧ r.blk = Vector.replicate 64 0) ∧
      (64 < k.length →
        r.h = compressBlocks (k.length / 64) iv k ∧
        r.blk.toList.take (k.length % 64) = k.drop (64 * (k.length / 64)))

/-- `B32Val` (R119): 'A' to 'Z' are 0 to 25, '2' to '7' are 26 to 31, and nothing else has a value. -/
def Obligations.Base32AlphabetOfThirtyTwo : Prop :=
  (∀ n : Nat, n < 26 → b32Val (BitVec.ofNat 8 (0x41 + n)) = some (BitVec.ofNat 5 n)) ∧
  (∀ n : Nat, n < 6 → b32Val (BitVec.ofNat 8 (0x32 + n)) = some (BitVec.ofNat 5 (26 + n))) ∧
  (∀ c : Byte, ¬ (0x41 ≤ c.toNat ∧ c.toNat ≤ 0x5A) → ¬ (0x32 ≤ c.toNat ∧ c.toNat ≤ 0x37) → b32Val c = none)

/-- The fixed shape of the engine's HMAC (R148): four compressions on four fully determined blocks. -/
def Obligations.HmacIsFourCompressions : Prop :=
  ∀ (k0 : Vector Byte 64) (c : BitVec 64),
    let ih := compress iv (k0.toList.map (· ^^^ 0x36))
    let inner := compress ih (be64 c ++ [0x80] ++ List.replicate 47 0x00 ++ be64 576)
    let oh := compress iv (k0.toList.map (· ^^^ 0x5C))
    let outer := compress oh ((ser inner).toList ++ [0x80] ++ List.replicate 35 0x00 ++ be64 672)
    hmacSha1 k0 (be64 c) = ser outer

/-- `DynTrunc` (R160): the big-endian value of the four digest bytes at the offset that the low nibble of the last byte names,
with its top bit cleared; it is below 2^31. -/
def Obligations.DynTruncIsTheMaskedWindow : Prop :=
  ∀ d : Vector Byte 20,
    let o := d[19].toNat % 16
    (∀ (h0 : o < 20) (h1 : o + 1 < 20) (h2 : o + 2 < 20) (h3 : o + 3 < 20),
      (dynTrunc d).toNat =
        (d[o].toNat * 2 ^ 24 + d[o + 1].toNat * 2 ^ 16 + d[o + 2].toNat * 2 ^ 8 + d[o + 3].toNat) % 2 ^ 31) ∧
    (dynTrunc d).toNat < 2 ^ 31

/-- `Digits` (R163): the six ASCII digits of the number, most significant first and leading zeros kept, so that their decimal
value is the number. -/
def Obligations.DigitsWriteTheNumber : Prop :=
  ∀ r : Nat, r < 1000000 →
    (∀ i (hi : i < 6), ((digits r)[i]).toNat = 0x30 + r / 10 ^ (5 - i) % 10) ∧
    (∀ b ∈ (digits r).toList, 0x30 ≤ b.toNat ∧ b.toNat ≤ 0x39) ∧
    (digits r).toList.foldl (fun n b => n * 10 + (b.toNat - 0x30)) 0 = r

/-- Whenever `CV` = 1 each of the window bytes 24 to 29 is an ASCII digit (R165). -/
def Obligations.CodeIsSixAsciiDigits : Prop :=
  ∀ s : State, Inv s → s.regs.cv = true → ∀ a, 24 ≤ a → a ≤ 29 →
    ∃ b : Byte, windowByte s.regs a = some b ∧ 0x30 ≤ b.toNat ∧ b.toNat ≤ 0x39

/-! ### Laws of command sequences -/

/-- `CTR64 v` leaves `CTR` = v, whatever it held, in every phase where `CBYTE` is legal; from `CTR` = 0 the last k bytes
suffice when v < 2^(8k) (R142). -/
def Obligations.EightCbytesLoadTheCounter : Prop :=
  ∀ (s : State) (v : BitVec 64), s.regs.phase ≠ .done → s.regs.phase ≠ .error →
    EndsIn (ctr64Cmds v) s { s.regs with ctr := v } (List.replicate 8 0x0000) ∧
    ∀ k, k ≤ 8 → v.toNat < 2 ^ (8 * k) → s.regs.ctr = 0 →
      EndsIn ((ctr64Cmds v).drop (8 - k)) s { s.regs with ctr := v } (List.replicate k 0x0000)

/-- The raw path law (R124): from `IDLE`, `KBYTE` of every key byte and `KEND` end in `KEYED` with `K0` = `NormKey(key)`, `CTR`
unchanged and everything else zero, every response 0x0000. -/
def Obligations.RawPathNormalisesTheKey : Prop :=
  ∀ (s : State) (k : List Byte), Inv s → s.regs.phase = .idle → k.length ≤ s.cfg.keyMax →
    EndsIn (keyRawCmds k) s { Regs.zero with phase := .keyed, k0 := normKey k, ctr := s.regs.ctr }
      (List.replicate (k.length + 1) 0x0000)

/-- The Base32 path law, first half (R125): a text that decodes to a key of at most `KEYMAX` bytes loads that key. -/
def Obligations.Base32PathLoadsTheDecodedKey : Prop :=
  ∀ (s : State) (text k : List Byte), Inv s → s.regs.phase = .idle →
    b32Decode text = some k → k.length ≤ s.cfg.keyMax →
    EndsIn (keyB32Cmds text) s { Regs.zero with phase := .keyed, k0 := normKey k, ctr := s.regs.ctr }
      (List.replicate (text.length + 1) 0x0000)

/-- The Base32 path law, second half (R125): a text that is no valid Base32 makes exactly one command fault with `InvalidKey`;
every command before it is answered 0x0000 and every later one is refused. The hypothesis on the length is the model's
(log entry 9): a text with more key bytes than `KEYMAX` before its defect raises `KeyOverflow` first. -/
def Obligations.Base32PathRejectsAnInvalidText : Prop :=
  ∀ (s : State) (text : List Byte), Inv s → s.regs.phase = .idle →
    b32Decode text = none → text.length / 8 * 5 ≤ s.cfg.keyMax →
    ∃ m, m ≤ text.length ∧
      EndsIn (keyB32Cmds text) s { Regs.zero with phase := .error, errc := 0x01 }
        (List.replicate m 0x0000 ++ List.replicate (text.length + 1 - m) 0x8000)

/-- The purity law (R226): from any state whatever, a whole derivation ends in a state that its key and counter alone
determine; by the raw path, and by the Base32 path for a text that decodes to the key. -/
def Obligations.DerivationIsPure : Prop :=
  ∀ (s : State) (key text : List Byte) (c : BitVec 64), s.cfg.Wf → key.length ≤ s.cfg.keyMax →
    let d := hmacSha1 (normKey key) (be64 c)
    let final : Regs := { Regs.zero with
      phase := .done, dg := d, tr := dynTrunc d, code := digits (reduceCode (dynTrunc d)), tv := true, cv := true, ctr := c }
    EndsIn ([.clr] ++ keyRawCmds key ++ ctr64Cmds c ++ [.hmac, .trunc, .reduce]) s final
      (List.replicate (key.length + 13) 0x0000) ∧
    (b32Decode text = some key →
      EndsIn ([.clr] ++ keyB32Cmds text ++ ctr64Cmds c ++ [.hmac, .trunc, .reduce]) s final
        (List.replicate (text.length + 13) 0x0000))

/-- What a host gets from the `HOTP` sequence followed by `RDERR` (R198): the six digits of the code for a text that decodes to
a key of at most `KEYMAX` bytes; `InvalidKey` for a text that is no valid Base32 (with the length hypothesis of log entry 9);
no other result. -/
def Obligations.HotpGivesTheCodeOrInvalidKey : Prop :=
  ∀ (s : State) (text : List Byte) (v : BitVec 64), s.cfg.Wf →
    (∀ k, b32Decode text = some k → k.length ≤ s.cfg.keyMax) →
    (b32Decode text = none → text.length / 8 * 5 ≤ s.cfg.keyMax) →
    ∃ (t : State) (rsps : List RspWord) (e : RspWord),
      runCmds (hotpCmds text v ++ [.rderr]) s = .next t ∧ t.outbox = s.outbox ++ rsps ++ [e] ∧
      rsps.length = text.length + 19 ∧
      derivationResult rsps (rspData e) =
        match b32Decode text with
        | some k => some (.ok (digits (reduceCode (dynTrunc (hmacSha1 (normKey k) (be64 v))))).toList)
        | none => some (.error .invalidKey)

/-! ### The assembler -/

/-- "The assembler never emits an illegal word" (R90): every word it emits is the word of a well-formed command. -/
def Obligations.AssemblerEmitsLegalWords : Prop :=
  ∀ (m : List Char) (o : AsmOperand) (w : CmdWord), asmWord m o = some w →
    ∃ i : Instr, decode w = .ok i ∧ i.wellFormed = true ∧ encode i = w
end

