-- ==== Sys2Proof/Laws/Decode.lean ====
section
/-! SUPPORT. The fields of a command word, and what the decoder does on each form. -/

namespace Sys2Proof

theorem opField_toNat (w : CmdWord) : (opField w).toNat = w.toNat / 256 := by
  simp only [opField, BitVec.extractLsb'_toNat, Nat.shiftRight_eq_div_pow]
  have := w.isLt
  omega

theorem immField_toNat (w : CmdWord) : (immField w).toNat = w.toNat % 256 := by
  simp [immField, BitVec.extractLsb'_toNat]

/-- The word with these two fields, as a number. -/
theorem append_toNat (op low : Byte) : (op ++ low : CmdWord).toNat = op.toNat * 256 + low.toNat := by
  have h : (op ++ low : BitVec (8 + 8)).toNat = op.toNat * 256 + low.toNat := by
    rw [BitVec.toNat_append, ← Nat.shiftLeft_add_eq_or_of_lt low.isLt, Nat.shiftLeft_eq]
  exact h

@[simp] theorem opField_append (op low : Byte) : opField (op ++ low : CmdWord) = op := by
  apply BitVec.eq_of_toNat_eq
  have := low.isLt
  rw [opField_toNat, append_toNat]; omega

@[simp] theorem immField_append (op low : Byte) : immField (op ++ low : CmdWord) = low := by
  apply BitVec.eq_of_toNat_eq
  have := low.isLt
  rw [immField_toNat, append_toNat]; omega

/-- A word is its two fields. -/
theorem opField_append_immField (w : CmdWord) : (opField w ++ immField w : CmdWord) = w := by
  apply BitVec.eq_of_toNat_eq
  rw [append_toNat, opField_toNat, immField_toNat]; omega

/-- Format N decodes exactly on a zero low byte (R71). -/
theorem decodeNone_eq_ok {w : CmdWord} {i j : Instr} : decodeNone w i = .ok j ↔ immField w = 0 ∧ i = j := by
  unfold decodeNone; split <;> simp_all

/-- Format X decodes exactly on a low byte of at most 29 (R71). -/
theorem decodeIndex_eq_ok {w : CmdWord} {j : Instr} :
    decodeIndex w = .ok j ↔ (immField w).toNat ≤ 29 ∧ .rdb ((immField w).setWidth 5) = j := by
  unfold decodeIndex; split <;> simp_all

end Sys2Proof
end

