-- ==== Sys2Proof/Laws/State.lean ====
section
/-! SUPPORT. One lemma per field per update: what the shared operations do to each part of the state, and `S0` field by
field. -/

namespace Sys2Proof.Machine

/-! `respond` and `refuse` touch the responses only. -/

@[simp] theorem respond_regs (rsp : RspWord) (s : State) : (respond rsp s).regs = s.regs := rfl
@[simp] theorem respond_cfg (rsp : RspWord) (s : State) : (respond rsp s).cfg = s.cfg := rfl
@[simp] theorem respond_inbox (rsp : RspWord) (s : State) : (respond rsp s).inbox = s.inbox := rfl
@[simp] theorem respond_outbox (rsp : RspWord) (s : State) : (respond rsp s).outbox = s.outbox ++ [rsp] := rfl

@[simp] theorem refuse_regs (s : State) : (refuse s).regs = s.regs := rfl
@[simp] theorem refuse_cfg (s : State) : (refuse s).cfg = s.cfg := rfl
@[simp] theorem refuse_inbox (s : State) : (refuse s).inbox = s.inbox := rfl
@[simp] theorem refuse_outbox (s : State) : (refuse s).outbox = s.outbox ++ [faultRsp] := rfl

/-! `clearRegs` touches the registers only. -/

@[simp] theorem clearRegs_regs (s : State) : (clearRegs s).regs = Regs.zero := rfl
@[simp] theorem clearRegs_cfg (s : State) : (clearRegs s).cfg = s.cfg := rfl
@[simp] theorem clearRegs_inbox (s : State) : (clearRegs s).inbox = s.inbox := rfl
@[simp] theorem clearRegs_outbox (s : State) : (clearRegs s).outbox = s.outbox := rfl

/-! The registers at `S0`. -/

@[simp] theorem zero_phase : Regs.zero.phase = .idle := rfl
@[simp] theorem zero_errc : Regs.zero.errc = 0 := rfl
@[simp] theorem zero_tv : Regs.zero.tv = false := rfl
@[simp] theorem zero_cv : Regs.zero.cv = false := rfl
@[simp] theorem zero_k0 : Regs.zero.k0 = Vector.replicate 64 0 := rfl
@[simp] theorem zero_blk : Regs.zero.blk = Vector.replicate 64 0 := rfl
@[simp] theorem zero_h : Regs.zero.h = Vector.replicate 5 0 := rfl
@[simp] theorem zero_klen : Regs.zero.klen = 0 := rfl
@[simp] theorem zero_bacc : Regs.zero.bacc = 0 := rfl
@[simp] theorem zero_bn : Regs.zero.bn = 0 := rfl
@[simp] theorem zero_bpad : Regs.zero.bpad = 0 := rfl
@[simp] theorem zero_bend : Regs.zero.bend = false := rfl
@[simp] theorem zero_ctr : Regs.zero.ctr = 0 := rfl
@[simp] theorem zero_dg : Regs.zero.dg = Vector.replicate 20 0 := rfl
@[simp] theorem zero_tr : Regs.zero.tr = 0 := rfl
@[simp] theorem zero_code : Regs.zero.code = Vector.replicate 6 0 := rfl

/-! Fault entry: every register of `S0` but `PHASE` and `ERRC` (R190). -/

@[simp] theorem faultRegs_phase (e : Exc) : (faultRegs e).phase = .error := rfl
@[simp] theorem faultRegs_errc (e : Exc) : (faultRegs e).errc = e.code := rfl

/-- Fault entry outside `ERROR` (R190). -/
theorem raiseFault_of_ne {s : State} (e : Exc) (h : s.regs.phase ≠ .error) :
    raiseFault e s = respond faultRsp { s with regs := faultRegs e } := by
  simp [raiseFault, h]

/-- A raise in `ERROR` is a refusal (R190, R191). -/
theorem raiseFault_of_error {s : State} (e : Exc) (h : s.regs.phase = .error) : raiseFault e s = refuse s := by
  simp [raiseFault, h]

/-- Whatever the phase, a raise leaves the engine in `ERROR`. -/
@[simp] theorem raiseFault_phase (e : Exc) (s : State) : (raiseFault e s).regs.phase = .error := by
  by_cases h : s.regs.phase = .error
  · simp [raiseFault_of_error e h, h]
  · simp [raiseFault_of_ne e h]

@[simp] theorem raiseFault_cfg (e : Exc) (s : State) : (raiseFault e s).cfg = s.cfg := by
  unfold raiseFault; split <;> rfl

@[simp] theorem raiseFault_inbox (e : Exc) (s : State) : (raiseFault e s).inbox = s.inbox := by
  unfold raiseFault; split <;> rfl

@[simp] theorem raiseFault_outbox (e : Exc) (s : State) : (raiseFault e s).outbox = s.outbox ++ [faultRsp] := by
  unfold raiseFault; split <;> rfl

/-! A long push touches `BLK`, `H` and `KLEN` only (R117). -/

@[simp] theorem pushLong_phase (b : Byte) (r : Regs) : (pushLong b r).phase = r.phase := rfl
@[simp] theorem pushLong_k0 (b : Byte) (r : Regs) : (pushLong b r).k0 = r.k0 := rfl
@[simp] theorem pushLong_klen (b : Byte) (r : Regs) : (pushLong b r).klen = r.klen + 1 := rfl

end Sys2Proof.Machine
end

