-- ==== Sys2Proof/Laws/Ops.lean ====
section
/-! SUPPORT. What the shared operations can do, each said once. -/

namespace Sys2Proof.Machine

/-- A command in a phase where the table says "ok" and whose rule answers registers and data (R70). -/
theorem runCommand_ok {i : Instr} {rule : Regs → Effect} {s : State} {r : Regs} {d : Byte}
    (hl : legality i s.regs.phase = .ok) (hr : rule s.regs = .ok (r, d)) :
    runCommand i rule s = .next (respond (okRsp d) { s with regs := r }) := by
  simp [runCommand, hl, hr]

/-- A command in a phase where the table says "ok" and whose rule raises (R70, R190). -/
theorem runCommand_raise {i : Instr} {rule : Regs → Effect} {s : State} {e : Exc}
    (hl : legality i s.regs.phase = .ok) (hr : rule s.regs = .error e) :
    runCommand i rule s = .next (raiseFault e s) := by
  simp [runCommand, hl, hr]

/-- A command in a phase where the table says "SEQ" (R188). -/
theorem runCommand_seq {i : Instr} {rule : Regs → Effect} {s : State}
    (hl : legality i s.regs.phase = .seq) : runCommand i rule s = .next (raiseFault .sequenceError s) := by
  simp [runCommand, hl]

/-- A command in a phase where the table says "refused" (R191). -/
theorem runCommand_refused {i : Instr} {rule : Regs → Effect} {s : State}
    (hl : legality i s.regs.phase = .refused) : runCommand i rule s = .next (refuse s) := by
  simp [runCommand, hl]

/-- Everything a command under the legality table can do. -/
theorem runCommand_cases (i : Instr) (rule : Regs → Effect) (s : State) :
    (legality i s.regs.phase = .refused ∧ runCommand i rule s = .next (refuse s)) ∨
    (legality i s.regs.phase = .seq ∧ runCommand i rule s = .next (raiseFault .sequenceError s)) ∨
    (legality i s.regs.phase = .ok ∧ ∃ e, rule s.regs = .error e ∧ runCommand i rule s = .next (raiseFault e s)) ∨
    (legality i s.regs.phase = .ok ∧ ∃ r d, rule s.regs = .ok (r, d) ∧
      runCommand i rule s = .next (respond (okRsp d) { s with regs := r })) := by
  cases hl : legality i s.regs.phase with
  | refused => exact .inl ⟨rfl, runCommand_refused hl⟩
  | seq => exact .inr (.inl ⟨rfl, runCommand_seq hl⟩)
  | ok =>
    cases hr : rule s.regs with
    | error e => exact .inr (.inr (.inl ⟨rfl, e, rfl, runCommand_raise hl hr⟩))
    | ok p => exact .inr (.inr (.inr ⟨rfl, p.1, p.2, rfl, runCommand_ok hl hr⟩))

/-- In `ERROR` the table refuses every command but the three of R191, and refuses nowhere else. -/
theorem legality_refused_iff (i : Instr) (p : Phase) :
    legality i p = .refused ↔ p = .error ∧ i ≠ .clr ∧ i ≠ .rdst ∧ i ≠ .rderr := by
  cases i <;> cases p <;> simp [legality, legalityRow]

/-- Everything `KeyPush` can do (R117). -/
theorem keyPush_cases (keyMax : Nat) (b : Byte) (r : Regs) :
    (r.klen.toNat = keyMax ∧ keyPush keyMax b r = .error .keyOverflow) ∨
    (r.klen.toNat ≠ keyMax ∧ ∃ h : r.klen.toNat < 64,
      keyPush keyMax b r = .ok { r with k0 := r.k0.set r.klen.toNat b h, klen := r.klen + 1 }) ∨
    (r.klen.toNat ≠ keyMax ∧ 64 ≤ r.klen.toNat ∧ keyPush keyMax b r = .ok (pushLong b r)) := by
  unfold keyPush
  by_cases h1 : r.klen.toNat = keyMax
  · exact .inl ⟨h1, by simp [h1]⟩
  · by_cases h2 : r.klen.toNat < 64
    · exact .inr (.inl ⟨h1, h2, by simp [h1, h2]⟩)
    · exact .inr (.inr ⟨h1, by omega, by simp [h1, h2]⟩)

/-- A push that succeeds changes `K0`, `BLK`, `H` and `KLEN` only (R117). -/
theorem keyPush_frame {keyMax : Nat} {b : Byte} {r r' : Regs} (h : keyPush keyMax b r = .ok r') :
    { r' with k0 := r.k0, blk := r.blk, h := r.h, klen := r.klen } = r := by
  obtain ⟨-, he⟩ | ⟨-, hlt, he⟩ | ⟨-, -, he⟩ := keyPush_cases keyMax b r <;> rw [he] at h <;> cases h <;> rfl

/-- A push that succeeds counts one byte (R117). -/
theorem keyPush_klen {keyMax : Nat} {b : Byte} {r r' : Regs} (h : keyPush keyMax b r = .ok r') :
    r'.klen = r.klen + 1 := by
  obtain ⟨-, he⟩ | ⟨-, hlt, he⟩ | ⟨-, -, he⟩ := keyPush_cases keyMax b r <;> rw [he] at h <;> cases h <;> rfl

@[simp] theorem keyPushAll_nil (keyMax : Nat) (r : Regs) : keyPushAll keyMax [] r = .ok r := rfl

/-- A byte, then the others. -/
theorem keyPushAll_cons {keyMax : Nat} {b : Byte} {bs : List Byte} {r r' : Regs} (h : keyPush keyMax b r = .ok r') :
    keyPushAll keyMax (b :: bs) r = keyPushAll keyMax bs r' := by
  simp [keyPushAll, h]

/-- Pushing a concatenation is pushing its parts in order. -/
theorem keyPushAll_append {keyMax : Nat} {xs ys : List Byte} {r r' : Regs} (h : keyPushAll keyMax xs r = .ok r') :
    keyPushAll keyMax (xs ++ ys) r = keyPushAll keyMax ys r' := by
  induction xs generalizing r with
  | nil => simp_all [keyPushAll]
  | cons b bs ih =>
    simp only [keyPushAll, List.cons_append] at h ⊢
    cases hp : keyPush keyMax b r with
    | error e => simp [hp] at h
    | ok q => simp only [hp] at h ⊢; exact ih h

/-- Pushes that succeed change `K0`, `BLK`, `H` and `KLEN` only. -/
theorem keyPushAll_frame {keyMax : Nat} {bs : List Byte} {r r' : Regs} (h : keyPushAll keyMax bs r = .ok r') :
    { r' with k0 := r.k0, blk := r.blk, h := r.h, klen := r.klen } = r := by
  induction bs generalizing r with
  | nil => cases h; rfl
  | cons b bs ih =>
    simp only [keyPushAll] at h
    cases hp : keyPush keyMax b r with
    | error e => simp [hp] at h
    | ok q =>
      simp only [hp] at h
      have h1 := ih h
      have h2 := keyPush_frame hp
      rw [← h2, ← h1]

/-- A byte too many is the only way a push raises (R189). -/
theorem keyPush_error {keyMax : Nat} {b : Byte} {r : Regs} {e : Exc} (h : keyPush keyMax b r = .error e) :
    e = .keyOverflow ∧ r.klen.toNat = keyMax := by
  obtain ⟨hk, he⟩ | ⟨-, hlt, he⟩ | ⟨-, -, he⟩ := keyPush_cases keyMax b r <;> rw [he] at h <;> cases h
  exact ⟨rfl, hk⟩

end Sys2Proof.Machine
end

