-- ==== Sys2Proof/Laws/PerInstr.lean ====
section
/-! SUPPORT. Statements made once for every command, one lemma per constructor. -/

namespace Sys2Proof.Laws.TableRow

/-- The `mask` column of R73. -/
def mask : Instr → CmdWord
  | .clr => 0xFFFF
  | .rdst => 0xFFFF
  | .rderr => 0xFFFF
  | .kbyte _ => 0xFF00
  | .kchar _ => 0xFF00
  | .kend => 0xFFFF
  | .cbyte _ => 0xFF00
  | .hmac => 0xFFFF
  | .trunc => 0xFFFF
  | .reduce => 0xFFFF
  | .rdb _ => 0xFFE0

/-- The `match` column of R73. -/
def pattern : Instr → CmdWord
  | .clr => 0x0100
  | .rdst => 0x0200
  | .rderr => 0x0300
  | .kbyte _ => 0x1200
  | .kchar _ => 0x1300
  | .kend => 0x1400
  | .cbyte _ => 0x2000
  | .hmac => 0x3000
  | .trunc => 0x4000
  | .reduce => 0x4100
  | .rdb _ => 0x5000

/-- The word of a command fits its row of the opcode table: `(cmd and mask) = match` (R73). -/
def Statement (i : Instr) : Prop := encode i &&& mask i = pattern i

theorem clr : Statement .clr := by unfold Statement; decide
theorem rdst : Statement .rdst := by unfold Statement; decide
theorem rderr : Statement .rderr := by unfold Statement; decide
theorem kbyte (b : Byte) : Statement (.kbyte b) := by
  unfold Statement; revert b; decide
theorem kchar (c : Byte) : Statement (.kchar c) := by
  revert c; unfold Statement; decide
theorem kend : Statement .kend := by unfold Statement; decide
theorem cbyte (b : Byte) : Statement (.cbyte b) := by
  unfold Statement; revert b; decide
theorem hmac : Statement .hmac := by unfold Statement; decide
theorem trunc : Statement .trunc := by unfold Statement; decide
theorem reduce : Statement .reduce := by unfold Statement; decide
theorem rdb (idx : BitVec 5) : Statement (.rdb idx) := by
  unfold Statement; revert idx; decide

end Sys2Proof.Laws.TableRow
end

