-- ==== Sys2Proof/Laws/Sha1.lean ====
section
/-! SUPPORT. Lengths of the byte strings and the unfolding of the block loop. -/

namespace Sys2Proof.Machine

@[simp] theorem be32_length (v : Word) : (be32 v).length = 4 := rfl
@[simp] theorem be64_length (v : BitVec 64) : (be64 v).length = 8 := rfl
@[simp] theorem rep_length (b : Byte) (n : Nat) : (rep b n).length = n := by simp [rep]
@[simp] theorem xor8_length (s : List Byte) (b : Byte) : (xor8 s b).length = s.length := by simp [xor8]
@[simp] theorem toReg_toList (n : Nat) (s : List Byte) : (toReg n s).toList = s.takeD n 0 := rfl

/-- A byte string that fills a register is its contents. -/
theorem toReg_toList_of_length {n : Nat} {s : List Byte} (h : s.length = n) : (toReg n s).toList = s := by
  rw [toReg_toList, List.takeD_eq_take _ h.ge, ← h, List.take_length]

/-- A digest as a byte string: the five words in order, each big-endian (R104). -/
theorem ser_toList (hc : Chain) :
    (ser hc).toList = be32 hc[0] ++ be32 hc[1] ++ be32 hc[2] ++ be32 hc[3] ++ be32 hc[4] :=
  toReg_toList_of_length (by simp)

@[simp] theorem compressBlocks_zero (hc : Chain) (m : List Byte) : compressBlocks 0 hc m = hc := rfl

theorem compressBlocks_succ (n : Nat) (hc : Chain) (m : List Byte) :
    compressBlocks (n + 1) hc m = compressBlocks n (compress hc (m.take 64)) (m.drop 64) := rfl

/-- The blocks of a long message, taken in two parts. -/
theorem compressBlocks_add (a b : Nat) (hc : Chain) (m : List Byte) :
    compressBlocks (a + b) hc m = compressBlocks b (compressBlocks a hc m) (m.drop (64 * a)) := by
  induction a generalizing hc m with
  | zero => simp
  | succ a ih =>
    rw [show a + 1 + b = (a + b) + 1 by omega, compressBlocks_succ, compressBlocks_succ, ih, List.drop_drop]
    rw [show 64 + 64 * a = 64 * (a + 1) by omega]

end Sys2Proof.Machine
end

