-- ==== Sys2Proof/Laws/Step.lean ====
section
/-! SUPPORT. What a step can do, and how runs compose. -/

namespace Sys2Proof.Machine

/-- Everything a step can do. -/
theorem step_cases (s : State) :
    (s.inbox = [] ∧ step s = .next s) ∨
    (∃ rest, s.inbox = .reset :: rest ∧ step s = .next (clearRegs { s with inbox := rest })) ∨
    (∃ w rest i, s.inbox = .command w :: rest ∧ decode w = .ok i ∧ step s = exec i { s with inbox := rest }) ∨
    (∃ w rest e, s.inbox = .command w :: rest ∧ decode w = .error e ∧
      step s = .next (raiseFault .illegalCommand { s with inbox := rest })) := by
  cases hi : s.inbox with
  | nil => exact .inl ⟨rfl, by simp [step, hi]⟩
  | cons e rest =>
    cases e with
    | reset => exact .inr (.inl ⟨rest, rfl, by simp [step, hi]⟩)
    | command w =>
      cases hd : decode w with
      | ok i => exact .inr (.inr (.inl ⟨w, rest, i, rfl, hd, by simp [step, hi, hd]⟩))
      | error e => exact .inr (.inr (.inr ⟨w, rest, e, rfl, hd, by simp [step, hi, hd, execIllegal]⟩))

/-- One more step of the host's run. -/
theorem coreRun_of_next (M : Host.Core) {n : Nat} {s t : M.State} (h : M.step s = .next t) :
    M.run (n + 1) s = M.run n t := by
  rw [Host.Core.run, h]

theorem coreRun_of_fault (M : Host.Core) {n : Nat} {s : M.State} {f : M.Fault} (h : M.step s = .fault f) :
    M.run (n + 1) s = .fault f := by
  rw [Host.Core.run, h]

theorem coreRun_of_refused (M : Host.Core) {n : Nat} {s : M.State} {r : M.Refusal} (h : M.step s = .refused r) :
    M.run (n + 1) s = .refused r := by
  rw [Host.Core.run, h]

/-- The runs of the claims are the host's runs of the model. -/
theorem runSteps_eq_run (n : Nat) (s : State) : runSteps n s = Host.Core.run Sys2Proof.core n s := by
  induction n generalizing s with
  | zero => rfl
  | succ n ih =>
    cases h : step s with
    | next t => rw [runSteps, h]; exact (ih t).trans (coreRun_of_next Sys2Proof.core h).symm
    | fault f => rw [runSteps, h]; exact (coreRun_of_fault Sys2Proof.core h).symm
    | refused r => rw [runSteps, h]; exact (coreRun_of_refused Sys2Proof.core h).symm

/-- One more step. -/
theorem runSteps_succ {n : Nat} {s t : State} (h : step s = .next t) : runSteps (n + 1) s = runSteps n t := by
  simp [runSteps, h]

/-- A run of a + b steps is a run of b steps after a run of a steps. -/
theorem runSteps_add {a b : Nat} {s t : State} (h : runSteps a s = .next t) : runSteps (a + b) s = runSteps b t := by
  induction a generalizing s with
  | zero => cases h; simp
  | succ a ih =>
    rw [show a + 1 + b = (a + b) + 1 by omega]
    cases hs : step s with
    | next u => rw [runSteps_succ hs] at h ⊢; exact ih h
    | fault f => simp [runSteps, hs] at h
    | refused r => simp [runSteps, hs] at h

end Sys2Proof.Machine
end

