-- ==== Sys2Proof/Tests/Slice0.lean ====
section
/-! SUPPORT. The model's own tests, their expected values copied from the spec's examples and vectors (95_test_vectors.md,
96_test_vectors_faults_control.md, the examples of the rules), and a witness for every hypothesis of a statement. -/

namespace Sys2Proof.Machine.Tests

-- One theorem at a time: in parallel their stacks together pass the memory limit.
set_option Elab.async false

/-- A state with these registers and no command waiting. -/
def withRegs (r : Regs) : State := { State.reset with regs := r }

/-- The registers a command leaves, if it answers a next state. -/
def regsAfter (i : Instr) (r : Regs) : Option Regs :=
  match exec i (withRegs r) with
  | .next t => some t.regs
  | .fault _ => none
  | .refused _ => none

/-- The response of a command. -/
def rspAfter (i : Instr) (r : Regs) : Option RspWord :=
  match exec i (withRegs r) with
  | .next t => t.outbox.getLast?
  | .fault _ => none
  | .refused _ => none

/-- Whether a command raises the fault with this code. -/
def faultsWith (i : Instr) (r : Regs) (code : Byte) : Bool :=
  regsAfter i r = some { Regs.zero with phase := .error, errc := code } && rspAfter i r = some 0x8000

/-- A byte string from its hexadecimal number of n bytes. -/
def bytes (n v : Nat) : List Byte := (List.range n).map fun i => BitVec.ofNat 8 (v / 256 ^ (n - 1 - i))

/-- Loading raw key bytes. -/
def rawKey (k : List Byte) : Regs :=
  { Regs.zero with phase := .keyRaw, klen := BitVec.ofNat 64 k.length, k0 := toReg 64 k }

/-- In `DONE` with the digest of the document's vector (95_test_vectors.md V10). -/
def doneRegs : Regs :=
  { Regs.zero with
    phase := .done, ctr := 52602764, dg := toReg 20 (bytes 20 0x9c65aa2bef9956ff000bbf233770409881bcf6a9) }

/-- The same after `TRUNC`. -/
def truncRegs : Regs := { doneRegs with tr := 0x0BBF2337, tv := true }

/-- The same after `REDUCE`. -/
def codeRegs : Regs := { truncRegs with code := toReg 6 (bytes 6 0x303735373637), cv := true }

/-- In `ERROR` after a `SequenceError`. -/
def errorRegs : Regs := { Regs.zero with phase := .error, errc := 0x11 }

/-- In `KEY_B32` after "MY=====" (R122 example). -/
def myRegs : Regs := { Regs.zero with phase := .keyB32, bacc := 0x330000000, bn := 7, bpad := 5 }

/-! ### Well-formedness (R71) -/

theorem test_wf_rdb_29 : (Instr.rdb 29).wellFormed = true := by decide
theorem test_wf_refuses_rdb_30 : (Instr.rdb 30).wellFormed = false := by decide
theorem test_wf_refuses_rdb_31 : (Instr.rdb 31).wellFormed = false := by decide

/-! ### Decoding: words written out from R73, bit by bit -/

theorem test_decode_clr : decode 0b0000000100000000 = .ok .clr := by decide
theorem test_decode_rdst : decode 0b0000001000000000 = .ok .rdst := by decide
theorem test_decode_rderr : decode 0b0000001100000000 = .ok .rderr := by decide
theorem test_decode_kbyte : decode 0b0001001000001011 = .ok (.kbyte 0x0B) := by decide
theorem test_decode_kchar : decode 0b0001001101000001 = .ok (.kchar 0x41) := by decide
theorem test_decode_kend : decode 0b0001010000000000 = .ok .kend := by decide
theorem test_decode_cbyte : decode 0b0010000010100111 = .ok (.cbyte 0xA7) := by decide
theorem test_decode_hmac : decode 0b0011000000000000 = .ok .hmac := by decide
theorem test_decode_trunc : decode 0b0100000000000000 = .ok .trunc := by decide
theorem test_decode_reduce : decode 0b0100000100000000 = .ok .reduce := by decide
theorem test_decode_rdb : decode 0b0101000000011101 = .ok (.rdb 29) := by decide

/-- The illegal words of 96_test_vectors_faults_control.md V11. -/
theorem test_decode_refuses :
    ([0x0000, 0xFFFF, 0x1000, 0x1100, 0x1500, 0x2100, 0x4200, 0x5100] : List CmdWord).all
      (fun w => decode w = .error .unassignedOpcode) ∧
    ([0x0101, 0x0201, 0x0380, 0x1401, 0x3001, 0x4001] : List CmdWord).all
      (fun w => decode w = .error .operandNotZero) ∧
    ([0x501E, 0x501F, 0x5020, 0x50FF] : List CmdWord).all (fun w => decode w = .error .indexReserved) := by
  decide

theorem test_encode : [Instr.clr, .kbyte 0x0B, .kchar 0x4D, .cbyte 0xA7, .hmac, .rdb 24].map encode =
    [0x0100, 0x120B, 0x134D, 0x20A7, 0x3000, 0x5018] := by decide

theorem test_decodeTableWord : decodeTableWord 16 0x4100 = some .reduce ∧ decodeTableWord 16 0x501E = none := by decide

/-! ### The datapath functions -/

/-- V1: `Compress` on the block of "abc" (R101). -/
theorem test_compress_abc :
    compress iv ([0x61, 0x62, 0x63, 0x80] ++ rep 0 59 ++ [0x18]) =
      #v[0xA9993E36, 0x4706816A, 0xBA3E2571, 0x7850C26C, 0x9CD0D89D] := by decide +kernel

/-- R99 example: W[16] to W[19] of the same block. -/
theorem test_schedule_abc :
    ((schedule (blockWords ([0x61, 0x62, 0x63, 0x80] ++ rep 0 59 ++ [0x18]))).drop 16).take 4 =
      [0xC2C4C700, 0x00000000, 0x00000030, 0x85898E01] := by decide +kernel

/-- V1: the round functions (R96). -/
theorem test_roundF :
    roundF 0 0xEFCDAB89 0x98BADCFE 0x10325476 = 0x98BADCFE ∧ roundF 20 1 2 4 = 7 ∧
    roundF 40 0xFF00FF00 0xF0F0F0F0 0xCCCCCCCC = 0xFCC0FCC0 ∧
    roundF 60 0xFF00FF00 0xF0F0F0F0 0xCCCCCCCC = 0xC33CC33C ∧
    roundF 19 0xFF00FF00 0xF0F0F0F0 0xCCCCCCCC = 0xF0CCF0CC := by decide

/-- V2: the two sides of the padding boundary (R102, R103). -/
theorem test_sha1_55_56 :
    (sha1 (rep 0x61 55)).toList = bytes 20 0xc1c8bbdc22796e28c0e15163d20899b65621d65a ∧
    (sha1 (rep 0x61 56)).toList = bytes 20 0xc2db330f6083854c99d4b5bfb6e8f29f201be699 := by decide +kernel

/-- V2: a message of more than one complete block (R103). -/
theorem test_sha1_120 :
    (sha1 (rep 0x61 120)).toList = bytes 20 0xf34c1488385346a55709ba056ddd08280dd4c6d6 := by decide +kernel

/-- R116 example: the key block of a long key. -/
theorem test_normKey_80 :
    normKey (rep 0xAA 80) = toReg 64 (bytes 20 0x4ca0ef38f1794b28a8f8ee110ee79d48ce13be25) := by decide +kernel

/-- V10: the document's vector through `HmacSha1` (R147). -/
theorem test_hmacSha1_document :
    (hmacSha1 (toReg 64 (bytes 10 0x9a91b4f183f1c35aac01)) (be64 52602764)).toList =
      bytes 20 0x9c65aa2bef9956ff000bbf233770409881bcf6a9 := by decide +kernel

/-- V8: offsets 10, 0 and 15, and a window whose top bit is cleared (R160). -/
theorem test_dynTrunc :
    dynTrunc (toReg 20 (bytes 20 0x1f8698690e02ca16618550ef7f19da8e945b555a)) = 0x50EF7F19 ∧
    dynTrunc (toReg 20 (bytes 20 0xfffefdfcfbfaf9f8f7f6f5f4f3f2f1f0efeeedf0)) = 0x7FFEFDFC ∧
    dynTrunc (toReg 20 (bytes 20 0x000102030405060708090a0b0c0d0e8f1011121f)) = 0x0F101112 := by decide +kernel

/-- V9: padding, the largest code, the first value that wraps (R162, R163). -/
theorem test_digits :
    (digits (reduceCode 42)).toList = bytes 6 0x303030303432 ∧
    (digits (reduceCode 999999)).toList = bytes 6 0x393939393939 ∧
    (digits (reduceCode 1000000)).toList = bytes 6 0x303030303030 := by decide +kernel

/-- V5: texts the decoder accepts and refuses (R121). -/
theorem test_b32Decode :
    b32Decode (bytes 8 0x4D593D3D3D3D3D3D) = some [0x66] ∧
    b32Decode (bytes 8 0x4D5A585736595442) = some (bytes 5 0x666f6f6261) ∧
    b32Decode [] = some [] ∧ b32Decode [0x4D, 0x59] = none ∧
    b32Decode (bytes 8 0x4D583D3D3D3D3D41) = none ∧ b32Decode (bytes 8 0x6D793D3D3D3D3D3D) = none := by decide +kernel

/-! ### The commands -/

/-- R173: `CLR` in `DONE` gives `S0`. -/
theorem test_clr : regsAfter .clr codeRegs = some Regs.zero ∧ rspAfter .clr codeRegs = some 0x0000 := by decide +kernel
theorem test_clr_leaves_error : regsAfter .clr errorRegs = some Regs.zero := by decide +kernel

/-- R174, V12: the status after a full derivation, and in `ERROR`. -/
theorem test_rdst : rspAfter .rdst codeRegs = some 0x001C ∧ rspAfter .rdst errorRegs = some 0x0007 := by decide +kernel

/-- V11: `RDERR` in `ERROR` gives the first code and keeps it. -/
theorem test_rderr : rspAfter .rderr errorRegs = some 0x0011 ∧ regsAfter .rderr errorRegs = some errorRegs := by
  decide +kernel

/-- R118 example. -/
theorem test_kbyte_first : regsAfter (.kbyte 0x0B) Regs.zero = some (rawKey [0x0B]) := by decide +kernel

/-- V6: the 65th byte compresses `K0` and goes to `BLK[0]`. -/
theorem test_kbyte_65 :
    (regsAfter (.kbyte 0xAA) (rawKey (rep 0xAA 64))).map (fun r => (r.h, r.blk, r.klen)) =
      some (#v[0xF90BA1B5, 0x0FF0AEA0, 0x54242251, 0x212CDD93, 0xF4A4EFD5], toReg 64 [0xAA], 65) := by decide +kernel

/-- R122 example: the eighth character of "MY======". -/
theorem test_kchar_eighth :
    regsAfter (.kchar 0x3D) myRegs =
      some { Regs.zero with phase := .keyB32, k0 := toReg 64 [0x66], klen := 1, bend := true } := by decide +kernel

/-- R122: a digit outside the alphabet, a pad count of 7, a character after a padded group. -/
theorem test_kchar_invalid :
    faultsWith (.kchar 0x31) Regs.zero 0x01 ∧ faultsWith (.kchar 0x3D) { myRegs with bpad := 6 } 0x01 ∧
    faultsWith (.kchar 0x4D) { Regs.zero with phase := .keyB32, klen := 1, bend := true } 0x01 := by decide +kernel

/-- V6, P4: `KEND` after 80 bytes 0xAA. -/
theorem test_kend_long :
    (regsAfter .kend { rawKey (rep 0xAA 64) with
      klen := 80, blk := toReg 64 (rep 0xAA 16),
      h := #v[0xF90BA1B5, 0x0FF0AEA0, 0x54242251, 0x212CDD93, 0xF4A4EFD5] }) =
      some { Regs.zero with
        phase := .keyed, k0 := toReg 64 (bytes 20 0x4ca0ef38f1794b28a8f8ee110ee79d48ce13be25) } := by decide +kernel

/-- V5: `KEND` inside a group, and for the empty key. -/
theorem test_kend_group_and_empty :
    faultsWith .kend myRegs 0x01 ∧ regsAfter .kend Regs.zero = some { Regs.zero with phase := .keyed } := by
  decide +kernel

/-- R140 example, and V7 row 4: the first byte leaves at the top. -/
theorem test_cbyte :
    regsAfter (.cbyte 0xA7) { Regs.zero with ctr := 0x322 } = some { Regs.zero with ctr := 0x322A7 } ∧
    regsAfter (.cbyte 0x09) { Regs.zero with ctr := 0x0102030405060708 } =
      some { Regs.zero with ctr := 0x0203040506070809 } := by decide +kernel

/-- R149 example (RFC 2202 case): the digest appears, the key is gone, `CTR` stays. -/
theorem test_hmac :
    regsAfter .hmac { Regs.zero with phase := .keyed, k0 := toReg 64 (rep 0x0B 20), ctr := 0x4869205468657265 } =
      some { Regs.zero with
        phase := .done, ctr := 0x4869205468657265,
        dg := toReg 20 (bytes 20 0xb617318655057264e28bc0b6fb378c8ef146be00) } := by decide +kernel

/-- V11: a second `HMAC` raises `SequenceError` and zeroes the results. -/
theorem test_hmac_again : faultsWith .hmac codeRegs 0x11 := by decide +kernel

/-- R161 and R164 examples. -/
theorem test_trunc_reduce : regsAfter .trunc doneRegs = some truncRegs ∧ regsAfter .reduce truncRegs = some codeRegs := by
  decide +kernel

/-- V11: `REDUCE` with `TV` = 0. -/
theorem test_reduce_unset : faultsWith .reduce doneRegs 0x11 := by decide +kernel

/-- P1: bytes of `DG`, `TR` and `CODE` through the window. -/
theorem test_rdb :
    [0, 19, 20, 23, 24, 29].map (fun a => rspAfter (.rdb a) codeRegs) =
      [some 0x9C, some 0xA9, some 0x0B, some 0x37, some 0x30, some 0x37] := by decide +kernel

/-- V11: bytes not yet produced. -/
theorem test_rdb_unset : faultsWith (.rdb 20) doneRegs 0x11 ∧ faultsWith (.rdb 24) truncRegs 0x11 := by decide +kernel

/-- V11: in `ERROR` an illegal word is refused and the first code kept. -/
theorem test_error_refuses :
    (match step ((withRegs errorRegs).withFetchWord 16 0x0000) with
      | .next t => decide (t.regs = errorRegs ∧ t.outbox = [0x8000])
      | _ => false) = true := by decide +kernel

/-- R193, V11: the word 0x0000 in `IDLE`. -/
theorem test_illegal_word :
    (match step (State.reset.withFetchWord 16 0x0000) with
      | .next t => decide (t.regs = { Regs.zero with phase := .error, errc := 0x10 } ∧ t.outbox = [0x8000] ∧ t.inbox = [])
      | _ => false) = true := by decide +kernel

/-- R215: reset zeroes and gives no response. -/
theorem test_reset_event :
    (match step { withRegs codeRegs with inbox := [.reset] } with
      | .next t => decide (t = State.reset)
      | _ => false) = true := by decide +kernel

/-- R90: lines of the assembler. -/
theorem test_asmLine :
    asmLine ['R', 'D', 'B', ' ', '2', '9', ' ', ';', 'x'] = some 0x501D ∧
    asmLine ['K', 'B', 'Y', 'T', 'E', ' ', '0', 'x', '0', 'b'] = some 0x120B ∧
    asmLine ['K', 'C', 'H', 'A', 'R', ' ', '\'', 'A', '\''] = some 0x1341 ∧
    asmLine ['R', 'D', 'B', ' ', '3', '0'] = none ∧ asmLine ['C', 'L', 'R', ' ', '0'] = none := by decide +kernel

/-! ### Witnesses: states and operands that meet the hypotheses of each statement -/

/-- The invariant holds of an engine with a key loaded and a result ready (not only at reset). -/
theorem inv_of_keyed : Inv (withRegs { Regs.zero with phase := .keyed, k0 := toReg 64 [0x66], ctr := 1 }) := by
  refine ⟨⟨by decide, by decide⟩, ?_⟩
  constructor <;> simp [withRegs, Regs.zero, Phase.loading, Regs.KeyPathZero, Regs.ResultsZero]

theorem inv_of_done : Inv (withRegs codeRegs) := by
  refine ⟨⟨by decide, by decide⟩, ?_⟩
  constructor <;>
    simp [withRegs, codeRegs, truncRegs, doneRegs, Regs.zero, Phase.loading, Regs.KeyPathZero, Regs.ResultsZero]
  decide +kernel

theorem inv_of_error : Inv (withRegs errorRegs) := by
  refine ⟨⟨by decide, by decide⟩, ?_⟩
  constructor <;> simp [withRegs, errorRegs, Regs.zero, Phase.loading, Regs.ResultsZero]

theorem inv_of_idle : Inv (withRegs { Regs.zero with ctr := 5 }) := by
  refine ⟨⟨by decide, by decide⟩, ?_⟩
  constructor <;> simp [withRegs, Regs.zero, Phase.loading, Regs.ResultsZero]

theorem witness_DecodeOfEncode : (Instr.rdb 29).wellFormed = true ∧ (Instr.kchar 0xFF).wellFormed = true := by decide
theorem witness_EncodeOfDecode : decode 0x501D = .ok (.rdb 29) ∧ decode 0x12FF = .ok (.kbyte 0xFF) := by decide

/-- Each kind of reserved word at a boundary, and a word that is not reserved, from a phase that is not `ERROR`. -/
theorem witness_ReservedWords :
    (withRegs doneRegs).regs.phase ≠ .error ∧ (withRegs errorRegs).regs.phase = .error ∧
    (0x5100 / 256 ∉ [0x01, 0x02, 0x03, 0x12, 0x13, 0x14, 0x20, 0x30, 0x40, 0x41, 0x50]) ∧
    (0x4101 / 256 ∈ [0x01, 0x02, 0x03, 0x14, 0x30, 0x40, 0x41] ∧ 0x4101 % 256 ≠ 0) ∧
    (0x501E / 256 = 0x50 ∧ 30 ≤ 0x501E % 256) ∧ ¬ 30 ≤ 0x501D % 256 := by decide

theorem witness_StepRuns : ((withRegs doneRegs).withFetchWord 16 0x4000).inbox = [.command 0x4000] ∧
    decode 0x4000 = .ok .trunc := by decide
theorem witness_Waiting : State.reset.inbox = [] := rfl

/-- `KBYTE`: the bytes number 64, 65 and 128; the overflow at `KEYMAX`; each phase. -/
theorem witness_Kbyte :
    ((63#64).toNat ≠ Config.default.keyMax ∧ (63#64).toNat < 64) ∧ (64 ≤ (64#64).toNat ∧ (64#64).toNat % 64 < 64) ∧
    (64 ≤ (127#64).toNat ∧ (127#64).toNat % 64 = 63) ∧ (BitVec.ofNat 64 (2 ^ 61 - 1)).toNat = Config.default.keyMax ∧
    (rawKey []).phase = .keyRaw ∧ myRegs.phase = .keyB32 ∧ doneRegs.phase = .done ∧ errorRegs.phase = .error := by
  decide +kernel

/-- `KCHAR` inside a group, as its seventh character: a character of the alphabet, a pad character. -/
theorem witness_KcharCollects :
    b32Val 0x37 = some 31 ∧ b32Val 0x3D = none ∧ (6#3).toNat < 7 ∧ myRegs.phase = .keyB32 ∧ myRegs.bend = false := by
  decide

/-- `KCHAR` as the eighth character: six pad characters, and none, with room for the bytes up to `KEYMAX`. -/
theorem witness_KcharEmits :
    Config.default.Wf ∧ myRegs.phase = .keyB32 ∧ myRegs.bend = false ∧ myRegs.bn = 7 ∧
    6 = myRegs.bpad.toNat + 1 ∧ (6, 1) ∈ [(0, 5), (1, 4), (3, 3), (4, 2), (6, 1)] ∧
    myRegs.klen.toNat + 1 ≤ Config.default.keyMax ∧ (b32Val 0x42 = some 1 ∧ (0#3) = 0) ∧
    (BitVec.ofNat 64 (2 ^ 61 - 6)).toNat + 5 = Config.default.keyMax := by
  refine ⟨⟨by decide, by decide⟩, ?_⟩
  decide +kernel

/-- `KCHAR` faults: overflow by one byte, and an illegal pad count with a full key. -/
theorem witness_KcharFaults :
    let r := { myRegs with klen := BitVec.ofNat 64 (2 ^ 61 - 1) }
    Config.default.Wf ∧ r.phase = .keyB32 ∧ r.bend = false ∧ r.bn = 7 ∧ 6 = r.bpad.toNat + 1 ∧
      r.klen.toNat ≤ Config.default.keyMax ∧ Config.default.keyMax < r.klen.toNat + 1 ∧
      (6, 1) ∈ [(0, 5), (1, 4), (3, 3), (4, 2), (6, 1)] ∧ (7#3).toNat + 1 ∈ [2, 5, 7, 8] ∧
      (rawKey []).phase = .keyRaw := by
  refine ⟨⟨by decide, by decide⟩, ?_⟩
  decide +kernel

/-- Each of the five situations of R186. -/
theorem witness_InvalidKey :
    ((0x31 : Byte) ≠ 0x3D ∧ b32Val 0x31 = none) ∧ (b32Val 0x41 ≠ none ∧ 0 < myRegs.bpad.toNat) ∧
    ({ Regs.zero with phase := .keyB32, klen := 1, bend := true } : Regs).bend = true ∧
    (myRegs.bn = 7 ∧ (6#3).toNat + 1 ∈ [2, 5, 7, 8]) ∧ (myRegs.phase.loading ∧ myRegs.bn ≠ 0) := by
  refine ⟨by decide, by decide, rfl, by decide, .inr (.inr rfl), by decide⟩

/-- A `KEND` that does raise, for the second half of the same statement. -/
theorem witness_InvalidKey_raised : faultsWith .kend myRegs 0x01 ∧ myRegs.phase ≠ .error := by decide +kernel

/-- `KEND`: a key of 64 bytes, one of 65, an unfinished group, each wrong phase. -/
theorem witness_Kend :
    ((rawKey (rep 0 64)).phase.loading ∧ (rawKey (rep 0 64)).bn = 0 ∧ (rawKey (rep 0 64)).klen.toNat ≤ 64) ∧
    64 < ({ rawKey (rep 0 64) with klen := 65 } : Regs).klen.toNat ∧ myRegs.bn ≠ 0 ∧ doneRegs.phase = .done := by
  refine ⟨⟨.inr (.inl rfl), by decide +kernel, by decide +kernel⟩, by decide +kernel, by decide, rfl⟩

/-- `CBYTE`, `HMAC`, `TRUNC`, `REDUCE`: a state for every clause. -/
theorem witness_Compute :
    (Regs.zero.phase ≠ .done ∧ Regs.zero.phase ≠ .error) ∧ Regs.zero.phase.loading ∧
    ({ Regs.zero with phase := .keyed } : Regs).phase = .keyed ∧ (doneRegs.phase = .done ∧ doneRegs.tv = false) ∧
    (truncRegs.phase = .done ∧ truncRegs.tv = true) ∧ errorRegs.phase = .error :=
  ⟨by decide, .inl rfl, rfl, ⟨rfl, rfl⟩, ⟨rfl, rfl⟩, rfl⟩

/-- `RDB`: the indexes where its clauses meet, with each flag set and not set. -/
theorem witness_Rdb :
    ((0#5).toNat < 20 ∧ (19#5).toNat < 20) ∧ (20 ≤ (20#5).toNat ∧ (23#5).toNat ≤ 23) ∧
    (24 ≤ (24#5).toNat ∧ (29#5).toNat ≤ 29 ∧ (29#5).toNat - 24 < 6) ∧ truncRegs.tv = true ∧ doneRegs.tv = false ∧
    codeRegs.cv = true ∧ truncRegs.cv = false ∧ codeRegs.phase = .done ∧ 30 ≤ (30#5).toNat := by decide

theorem witness_ErrorPhase :
    Inv (withRegs errorRegs) ∧ (withRegs errorRegs).regs.phase = .error ∧
      ((withRegs errorRegs).withFetchWord 16 0x3000).inbox = [.command 0x3000] ∧
      (0x3000#16 ≠ 0x0100 ∧ 0x3000#16 ≠ 0x0200 ∧ 0x3000#16 ≠ 0x0300) := ⟨inv_of_error, rfl, rfl, by decide⟩

theorem witness_Reset : ({ withRegs codeRegs with inbox := [.reset] } : State).inbox = .reset :: [] := rfl

/-- The frames: each command runs without a fault somewhere. -/
theorem witness_Frames :
    ([(.rdst, errorRegs), (.rderr, errorRegs), (.rdb 29, codeRegs), (.kbyte 1, Regs.zero), (.kchar 0x41, Regs.zero),
      (.kend, Regs.zero), (.cbyte 1, Regs.zero), (.hmac, { Regs.zero with phase := .keyed }), (.trunc, doneRegs),
      (.reduce, truncRegs)] : List (Instr × Regs)).all
      (fun p => (regsAfter p.1 p.2).isSome && (rspAfter p.1 p.2 != some 0x8000)) = true := by decide +kernel

theorem witness_InvariantKept :
    Inv (withRegs codeRegs) ∧ ∃ t, step (withRegs codeRegs) = .next t := ⟨inv_of_done, _, rfl⟩

theorem witness_InvariantReached :
    ∃ t, runSteps 1 { State.reset with inbox := [.command 0x2005] } = .next t ∧ t.regs.ctr = 5 :=
  ⟨_, rfl, by decide⟩

/-- A step that changes the phase. -/
theorem witness_PhaseChanges :
    (match step (State.reset.withFetchWord 16 0x1400) with
      | .next t => decide (t.regs.phase ≠ State.reset.regs.phase)
      | _ => false) = true := by decide +kernel

theorem witness_SecretBytes : List.Forall₂ SameButSecret [0x1200, 0x1400, 0x3000] [0x12FF, 0x1400, 0x3000] := by
  refine .cons (.inr (by decide)) (.cons (.inl rfl) (.cons (.inl rfl) .nil))

/-- Two states that agree in what a host may read and differ in the key. -/
theorem witness_Hidden :
    let r := { Regs.zero with phase := .keyed, k0 := toReg 64 [1] }
    let q := { Regs.zero with phase := .keyed, k0 := toReg 64 [2] }
    publicView r = publicView q ∧ r.dg = q.dg ∧ r.tr = q.tr ∧ r.code = q.code ∧
      (regsAfter .hmac r).isSome ∧ (regsAfter .hmac q).isSome ∧ r ≠ q := by decide +kernel

theorem witness_Schedule : (List.replicate 16 (1#32)).length = 16 ∧ 16 ≤ 79 ∧ 79 < 80 := by decide
theorem witness_FinalBlocks : (rep 0x61 55).length = 55 ∧ (rep 0x61 63).length ≤ 63 ∧ 2 ^ 61 - 1 < 2 ^ 61 := by decide
theorem witness_KeyPush : 64 ≤ 64 ∧ 64 ≤ 2 ^ 61 - 1 ∧ (rep 0xAA 64).length ≤ 64 ∧ 64 < (rep 0xAA 65).length := by decide
theorem witness_Alphabet : 25 < 26 ∧ 5 < 6 ∧ ¬ (0x41 ≤ (0x40#8).toNat ∧ (0x40#8).toNat ≤ 0x5A) ∧
    ¬ (0x32 ≤ (0x40#8).toNat ∧ (0x40#8).toNat ≤ 0x37) := by decide
theorem witness_Digits : 999999 < 1000000 := by decide
theorem witness_Code : Inv (withRegs codeRegs) ∧ (withRegs codeRegs).regs.cv = true := ⟨inv_of_done, rfl⟩
theorem witness_CounterLoad : Regs.zero.phase ≠ .done ∧ Regs.zero.phase ≠ .error ∧ Regs.zero.ctr = 0 ∧
    (255#64).toNat < 2 ^ (8 * 1) ∧ ¬ (256#64).toNat < 2 ^ (8 * 1) := by decide

theorem witness_PathLaws :
    Inv (withRegs { Regs.zero with ctr := 5 }) ∧ (withRegs { Regs.zero with ctr := 5 }).regs.phase = .idle ∧
    (rep 0xAA 65).length ≤ (withRegs { Regs.zero with ctr := 5 }).cfg.keyMax ∧
    b32Decode (bytes 8 0x4D593D3D3D3D3D3D) = some [0x66] ∧
    b32Decode [0x4D, 0x31] = none ∧ [0x4D, 0x31].length / 8 * 5 ≤ (withRegs { Regs.zero with ctr := 5 }).cfg.keyMax := by
  refine ⟨inv_of_idle, rfl, ?_⟩
  decide +kernel

theorem witness_Derivation :
    State.reset.cfg.Wf ∧ ([0x66] : List Byte).length ≤ State.reset.cfg.keyMax ∧
    b32Decode (bytes 8 0x4D593D3D3D3D3D3D) = some [0x66] := by
  refine ⟨⟨by decide, by decide⟩, ?_⟩
  decide +kernel

/-- `HOTP`: a text that decodes, and one that does not, each meeting both premises. -/
theorem witness_Hotp :
    State.reset.cfg.Wf ∧
    ((∀ k, b32Decode [] = some k → k.length ≤ State.reset.cfg.keyMax) ∧ b32Decode [] ≠ none) ∧
    (b32Decode [0x31] = none ∧ [0x31].length / 8 * 5 ≤ State.reset.cfg.keyMax) := by
  refine ⟨⟨by decide, by decide⟩, ⟨?_, by decide⟩, by decide +kernel⟩
  intro k h
  cases h
  decide

theorem witness_Assembler : asmWord ['R', 'D', 'B'] (.number 29) = some 0x501D := by decide

end Sys2Proof.Machine.Tests
end

section
/-! SUPPORT. The rule of every command as one function, and what a rule that answers did: one inversion lemma per rule. -/

namespace Sys2Proof.Machine

open Sys2Proof

/-- The rule each command runs once the legality table says "ok" (R70 (5)); `exec_eq_runCommand` ties it to `exec`. -/
def ruleOf (keyMax : Nat) : Instr → Regs → Effect
  | .clr, _ => .ok (Regs.zero, 0)
  | .rdst, r => .ok (r, statusByte r)
  | .rderr, r => .ok (r, r.errc)
  | .kbyte b, r => kbyteRule keyMax b r
  | .kchar c, r => kcharRule keyMax c r
  | .kend, r => kendRule r
  | .cbyte b, r => .ok ({ r with ctr := shiftCounter r.ctr b }, 0)
  | .hmac, r =>
    .ok ({ r with dg := hmacSha1 r.k0 (be64 r.ctr), k0 := Vector.replicate 64 0, phase := .done }, 0)
  | .trunc, r => .ok ({ r with tr := dynTrunc r.dg, tv := true }, 0)
  | .reduce, r => reduceRule r
  | .rdb idx, r => rdbRule idx r

/-- A well-formed command is its rule under the legality table (R70). -/
theorem exec_eq_runCommand {i : Instr} (hi : i.wellFormed = true) (s : State) :
    exec i s = runCommand i (ruleOf s.cfg.keyMax i) s := by
  cases i with
  | rdb idx =>
    have hidx : ¬ 29 < idx.toNat := not_lt.mpr (by simpa [Instr.wellFormed] using hi)
    exact if_neg hidx
  | _ => rfl

/-- What a word that decodes says of its command (R71, R73, R74): its opcode byte, its low byte, a legal operand. -/
theorem fields_of_decode {w : CmdWord} {i : Instr} (h : decode w = .ok i) :
    opcode i = opField w ∧ lowByte i = immField w ∧ i.wellFormed = true := by
  unfold decode at h
  split at h
  case h_4 hop | h_5 hop | h_7 hop => cases h; exact ⟨hop.symm, rfl, rfl⟩
  case h_11 hop =>
    obtain ⟨himm, rfl⟩ := decodeIndex_eq_ok.mp h
    refine ⟨hop.symm, BitVec.eq_of_toNat_eq ?_, ?_⟩
    · simp only [lowByte, BitVec.toNat_setWidth]; omega
    · simp only [Instr.wellFormed, BitVec.toNat_setWidth, decide_eq_true_eq]; omega
  case h_12 => cases h
  all_goals
    obtain ⟨himm, rfl⟩ := decodeNone_eq_ok.mp h
    exact ⟨Eq.symm ‹_›, himm.symm, rfl⟩

theorem decode_of_opField_kbyte {w : CmdWord} (h : opField w = 0x12) : decode w = .ok (.kbyte (immField w)) := by
  unfold decode
  rw [h]
  rfl

theorem decode_of_opField_cbyte {w : CmdWord} (h : opField w = 0x20) : decode w = .ok (.cbyte (immField w)) := by
  unfold decode
  rw [h]
  rfl

/-! ### The rows of the legality table (R78): where each command's rule runs -/

theorem legality_kbyte_ok {b : Byte} {p : Phase} : legality (.kbyte b) p = .ok ↔ p = .idle ∨ p = .keyRaw := by
  cases p <;> simp [legality, legalityRow]

theorem legality_kchar_ok {c : Byte} {p : Phase} : legality (.kchar c) p = .ok ↔ p = .idle ∨ p = .keyB32 := by
  cases p <;> simp [legality, legalityRow]

theorem legality_kend_ok {p : Phase} : legality .kend p = .ok ↔ p.loading := by
  cases p <;> simp [legality, legalityRow, Phase.loading]

theorem legality_cbyte_ok {b : Byte} {p : Phase} : legality (.cbyte b) p = .ok ↔ p ≠ .done ∧ p ≠ .error := by
  cases p <;> simp [legality, legalityRow]

theorem legality_hmac_ok {p : Phase} : legality .hmac p = .ok ↔ p = .keyed := by
  cases p <;> simp [legality, legalityRow]

theorem legality_trunc_ok {p : Phase} : legality .trunc p = .ok ↔ p = .done := by
  cases p <;> simp [legality, legalityRow]

theorem legality_reduce_ok {p : Phase} : legality .reduce p = .ok ↔ p = .done := by
  cases p <;> simp [legality, legalityRow]

/-! ### What a rule that answers did -/

theorem kbyteRule_eq_ok {keyMax : Nat} {b : Byte} {r r' : Regs} {d : Byte} (h : kbyteRule keyMax b r = .ok (r', d)) :
    ∃ q, keyPush keyMax b r = .ok q ∧ r' = { q with phase := .keyRaw } := by
  unfold kbyteRule at h
  cases hp : keyPush keyMax b r with
  | error e => simp [hp] at h
  | ok q => simp only [hp] at h; cases h; exact ⟨q, rfl, rfl⟩

theorem emitGroup_eq_ok {keyMax pads : Nat} {acc : BitVec 40} {r r' : Regs} {d : Byte}
    (h : emitGroup keyMax acc pads r = .ok (r', d)) :
    ∃ n q, nBytes pads = some n ∧ keyPushAll keyMax ((groupBytes acc).take n) r = .ok q ∧
      r' = { q with bend := decide (0 < pads), bacc := 0, bn := 0, bpad := 0, phase := .keyB32 } := by
  unfold emitGroup at h
  cases hn : nBytes pads with
  | none => simp [hn] at h
  | some n =>
    cases hp : keyPushAll keyMax ((groupBytes acc).take n) r with
    | error e => simp [hn, hp] at h
    | ok q => simp only [hn, hp] at h; cases h; exact ⟨n, q, rfl, hp, rfl⟩

/-- A character that `KCHAR` accepts is taken into the group, at most one pad character more being in it (R122). -/
theorem kcharRule_eq_ok {keyMax : Nat} {c : Byte} {r : Regs} {p : Regs × Byte} (h : kcharRule keyMax c r = .ok p) :
    r.bend = false ∧ ∃ v pads, pads ≤ r.bpad.toNat + 1 ∧ acceptChar keyMax v pads r = .ok p := by
  unfold kcharRule at h
  split at h
  · cases h
  · refine ⟨Bool.eq_false_of_not_eq_true ‹_›, ?_⟩
    split at h
    · exact ⟨0, r.bpad.toNat + 1, le_rfl, h⟩
    · split at h
      · cases h
      · split at h
        · cases h
        · exact ⟨_, _, Nat.le_succ _, h⟩

/-- The registers after a character before the eighth of its group (R122). -/
def Regs.enterChar (v : BitVec 5) (pads : Nat) (r : Regs) : Regs :=
  { r with bacc := r.bacc * 32 + v.setWidth 40, bn := r.bn + 1, bpad := BitVec.ofNat 3 pads, phase := .keyB32 }

/-- A character before the eighth only enters the group (R122). -/
theorem acceptChar_of_lt {keyMax pads : Nat} {v : BitVec 5} {r : Regs} (h : r.bn.toNat < 7) :
    acceptChar keyMax v pads r = .ok (r.enterChar v pads, 0) :=
  if_pos h

/-- The eighth character of a group closes it (R122). -/
theorem acceptChar_of_ge {keyMax pads : Nat} {v : BitVec 5} {r : Regs} (h : ¬ r.bn.toNat < 7) :
    acceptChar keyMax v pads r = emitGroup keyMax (r.bacc * 32 + v.setWidth 40) pads r :=
  if_neg h

theorem kendRule_eq_ok {r r' : Regs} {d : Byte} (h : kendRule r = .ok (r', d)) :
    r.bn = 0 ∧ r' = { r with
      k0 := closedKey r, blk := Vector.replicate 64 0, h := Vector.replicate 5 0, klen := 0
      bacc := 0, bpad := 0, bend := false, phase := .keyed } := by
  unfold kendRule at h
  split at h
  · cases h
  · cases h; exact ⟨not_not.mp ‹_›, rfl⟩

theorem reduceRule_eq_ok {r r' : Regs} {d : Byte} (h : reduceRule r = .ok (r', d)) :
    r.tv = true ∧ r' = { r with code := digits (reduceCode r.tr), cv := true } := by
  unfold reduceRule at h
  split at h
  · cases h; exact ⟨‹_›, rfl⟩
  · cases h

/-- A read changes no register (R55, R176). -/
theorem rdbRule_eq_ok {idx : BitVec 5} {r r' : Regs} {d : Byte} (h : rdbRule idx r = .ok (r', d)) : r' = r := by
  unfold rdbRule at h
  split at h
  · split at h <;> cases h; rfl
  · cases h

/-- A complete group carries one byte to five (R120). -/
theorem nBytes_range {pads n : Nat} (h : nBytes pads = some n) : 1 ≤ n ∧ n ≤ 5 := by
  unfold nBytes at h
  split at h <;> cases h <;> decide

end Sys2Proof.Machine
end

section
/-! SUPPORT. The invariant of R39: how each phase meets it, and that every rule keeps it. -/

namespace Sys2Proof.Machine

open Sys2Proof

/-- The key registers while a key is loaded: items 4 to 6 of R39, whatever the loading phase. -/
structure Regs.KeyLoading (keyMax : Nat) (r : Regs) : Prop where
  klen_le : r.klen.toNat ≤ keyMax
  k0_zero : ∀ i (hi : i < 64), r.klen.toNat ≤ i → r.k0[i] = 0
  hash_zero : r.klen.toNat ≤ 64 → r.h = Vector.replicate 5 0 ∧ r.blk = Vector.replicate 64 0

/-- The accumulator holds no more than the characters of the open group (R39, item 5). -/
structure Regs.GroupOpen (r : Regs) : Prop where
  bpad_le : r.bpad.toNat ≤ r.bn.toNat
  bacc_lt : r.bacc.toNat < 2 ^ (5 * r.bn.toNat)

/-! ### What the invariant gives -/

theorem Regs.Inv.errc_zero {keyMax : Nat} {r : Regs} (hi : r.Inv keyMax) (hp : r.phase ≠ .error) : r.errc = 0 := by
  by_contra he
  exact hp (hi.error_iff.mpr he)

theorem Regs.Inv.keyLoading {keyMax : Nat} {r : Regs} (hi : r.Inv keyMax) (hp : r.phase.loading) :
    r.KeyLoading keyMax := by
  obtain ⟨hk0, hh⟩ := hi.loading hp
  refine ⟨?_, hk0, hh⟩
  obtain hp | hp | hp := hp
  · rw [hi.idle_zero hp]; simp
  · exact (hi.keyRaw hp).2.1
  · exact (hi.keyB32 hp).1

/-- While a key is loaded there is no fault and no result (R39, items 2 and 9). -/
theorem Regs.Inv.results_zero_of_loading {keyMax : Nat} {r : Regs} (hi : r.Inv keyMax) (hp : r.phase.loading) :
    r.errc = 0 ∧ r.ResultsZero := by
  refine ⟨hi.errc_zero ?_, hi.notDone ?_⟩ <;> intro h <;> simp [h, Phase.loading] at hp

theorem Regs.Inv.groupOpen {keyMax : Nat} {r : Regs} (hi : r.Inv keyMax) (hp : r.phase = .idle ∨ r.phase = .keyB32) :
    r.GroupOpen := by
  obtain hp | hp := hp
  · constructor <;> rw [hi.idle_zero hp] <;> simp
  · obtain ⟨-, -, hbpad, hbacc, -⟩ := hi.keyB32 hp
    exact ⟨hbpad, hbacc⟩

/-- Outside the Base32 phase the decoder stands at the start of a group. -/
theorem Regs.Inv.decoder_zero {keyMax : Nat} {r : Regs} (hi : r.Inv keyMax) (hp : r.phase = .idle ∨ r.phase = .keyRaw) :
    r.bacc = 0 ∧ r.bn = 0 ∧ r.bpad = 0 ∧ r.bend = false := by
  obtain hp | hp := hp
  · rw [hi.idle_zero hp]; simp
  · exact (hi.keyRaw hp).2.2

/-! ### How registers of each phase meet it -/

theorem Regs.ResultsZero.unset_zero {r : Regs} (h : r.ResultsZero) :
    (r.tv = false → r.tr = 0) ∧ (r.cv = false → r.code = Vector.replicate 6 0) := by
  obtain ⟨-, htr, hcode, -, -⟩ := h
  exact ⟨fun _ => htr, fun _ => hcode⟩

theorem zero_inv (keyMax : Nat) : Regs.zero.Inv keyMax := by
  constructor
  case idle_zero => exact fun _ => rfl
  all_goals simp [Phase.loading, Regs.ResultsZero]

theorem faultRegs_inv (keyMax : Nat) (e : Exc) : (faultRegs e).Inv keyMax := by
  have hcode : e.code ≠ 0 := by cases e <;> decide
  have hcodes : e.code = 0x00 ∨ e.code = 0x01 ∨ e.code = 0x10 ∨ e.code = 0x11 ∨ e.code = 0x12 := by
    cases e <;> simp [Exc.code]
  constructor <;> simp_all [faultRegs, Phase.loading, Regs.ResultsZero]

theorem Regs.Inv.of_keyRaw {keyMax : Nat} {r : Regs} (hp : r.phase = .keyRaw) (he : r.errc = 0) (hz : r.ResultsZero)
    (hl : r.KeyLoading keyMax) (hk : 1 ≤ r.klen.toNat)
    (hd : r.bacc = 0 ∧ r.bn = 0 ∧ r.bpad = 0 ∧ r.bend = false) : r.Inv keyMax where
  error_iff := by simp [hp, he]
  errc_codes := .inl he
  error_zero := by simp [hp]
  idle_zero := by simp [hp]
  keyRaw _ := ⟨hk, hl.klen_le, hd⟩
  keyB32 := by simp [hp]
  loading _ := ⟨hl.k0_zero, hl.hash_zero⟩
  keyed := by simp [hp]
  done := by simp [hp]
  unset_zero := hz.unset_zero
  notDone _ := hz

theorem Regs.Inv.of_keyB32 {keyMax : Nat} {r : Regs} (hp : r.phase = .keyB32) (he : r.errc = 0) (hz : r.ResultsZero)
    (hl : r.KeyLoading keyMax) (hg : r.GroupOpen) (hb : r.bend = true → r.bn = 0)
    (hn : 1 ≤ r.klen.toNat + r.bn.toNat) : r.Inv keyMax where
  error_iff := by simp [hp, he]
  errc_codes := .inl he
  error_zero := by simp [hp]
  idle_zero := by simp [hp]
  keyRaw := by simp [hp]
  keyB32 _ := ⟨hl.klen_le, Nat.le_of_lt_succ r.bn.isLt, hg.bpad_le, hg.bacc_lt, hb, hn⟩
  loading _ := ⟨hl.k0_zero, hl.hash_zero⟩
  keyed := by simp [hp]
  done := by simp [hp]
  unset_zero := hz.unset_zero
  notDone _ := hz

theorem Regs.Inv.of_keyed {keyMax : Nat} {r : Regs} (hp : r.phase = .keyed) (he : r.errc = 0) (hz : r.ResultsZero)
    (hk : r.KeyPathZero) : r.Inv keyMax where
  error_iff := by simp [hp, he]
  errc_codes := .inl he
  error_zero := by simp [hp]
  idle_zero := by simp [hp]
  keyRaw := by simp [hp]
  keyB32 := by simp [hp]
  loading := by simp [hp, Phase.loading]
  keyed _ := hk
  done := by simp [hp]
  unset_zero := hz.unset_zero
  notDone _ := hz

theorem Regs.Inv.of_done {keyMax : Nat} {r : Regs} (hp : r.phase = .done) (he : r.errc = 0)
    (hd : r.k0 = Vector.replicate 64 0 ∧ r.KeyPathZero ∧ (r.cv = true → r.tv = true) ∧
      (r.tv = true → r.tr = dynTrunc r.dg) ∧ (r.cv = true → r.code = digits (reduceCode r.tr)) ∧
      r.tr.getLsbD 31 = false)
    (hu : (r.tv = false → r.tr = 0) ∧ (r.cv = false → r.code = Vector.replicate 6 0)) : r.Inv keyMax where
  error_iff := by simp [hp, he]
  errc_codes := .inl he
  error_zero := by simp [hp]
  idle_zero := by simp [hp]
  keyRaw := by simp [hp]
  keyB32 := by simp [hp]
  loading := by simp [hp, Phase.loading]
  keyed := by simp [hp]
  done _ := hd
  unset_zero := hu
  notDone := by simp [hp]

/-! ### Key pushes (R117) -/

/-- A push that succeeds on a key not longer than `KEYMAX` counts without wrapping. -/
theorem keyPush_klen_toNat {keyMax : Nat} {b : Byte} {r r' : Regs} (hk : keyMax < 2 ^ 64) (hle : r.klen.toNat ≤ keyMax)
    (h : keyPush keyMax b r = .ok r') : r'.klen.toNat = r.klen.toNat + 1 ∧ r.klen.toNat < keyMax := by
  have hne : r.klen.toNat ≠ keyMax := by
    intro heq
    simp [keyPush, heq] at h
  have hlt : r.klen.toNat < keyMax := by omega
  refine ⟨?_, hlt⟩
  rw [keyPush_klen h, BitVec.toNat_add]
  exact Nat.mod_eq_of_lt (by simp; omega)

theorem keyPush_keyLoading {keyMax : Nat} {b : Byte} {r r' : Regs} (hk : keyMax < 2 ^ 64) (hl : r.KeyLoading keyMax)
    (h : keyPush keyMax b r = .ok r') : r'.KeyLoading keyMax := by
  obtain ⟨hklen, hlt⟩ := keyPush_klen_toNat hk hl.klen_le h
  refine ⟨by omega, ?_, ?_⟩ <;> rw [hklen]
  all_goals obtain ⟨-, he⟩ | ⟨-, hshort, he⟩ | ⟨-, hlong, he⟩ := keyPush_cases keyMax b r <;> rw [he] at h <;> cases h
  · intro i hi hle
    rw [Vector.getElem_set_ne _ _ (by omega)]
    exact hl.k0_zero i hi (by omega)
  · intros; omega
  · exact fun _ => hl.hash_zero (by omega)
  · intros; omega

theorem keyPushAll_keyLoading {keyMax : Nat} {bs : List Byte} {r r' : Regs} (hk : keyMax < 2 ^ 64)
    (hl : r.KeyLoading keyMax) (h : keyPushAll keyMax bs r = .ok r') :
    r'.KeyLoading keyMax ∧ r'.klen.toNat = r.klen.toNat + bs.length := by
  induction bs generalizing r with
  | nil => cases h; exact ⟨hl, rfl⟩
  | cons b bs ih =>
    cases hp : keyPush keyMax b r with
    | error e => simp [keyPushAll, hp] at h
    | ok q =>
      rw [keyPushAll_cons hp] at h
      obtain ⟨hl', hlen⟩ := ih (keyPush_keyLoading hk hl hp) h
      obtain ⟨hq, -⟩ := keyPush_klen_toNat hk hl.klen_le hp
      exact ⟨hl', by rw [hlen, hq, List.length_cons]; omega⟩

/-! ### Each rule keeps the invariant -/

theorem kbyteRule_inv {keyMax : Nat} {b : Byte} {r r' : Regs} {d : Byte} (hk : keyMax < 2 ^ 64) (hi : r.Inv keyMax)
    (hp : r.phase = .idle ∨ r.phase = .keyRaw) (h : kbyteRule keyMax b r = .ok (r', d)) : r'.Inv keyMax := by
  obtain ⟨q, hpush, rfl⟩ := kbyteRule_eq_ok h
  have hload : r.phase.loading := hp.imp_right .inl
  have hl := hi.keyLoading hload
  obtain ⟨he, hz⟩ := hi.results_zero_of_loading hload
  have hd := hi.decoder_zero hp
  obtain ⟨hklen, -⟩ := keyPush_klen_toNat hk hl.klen_le hpush
  obtain ⟨hc1, hc2, hc3⟩ := keyPush_keyLoading hk hl hpush
  have hframe := keyPush_frame hpush
  rw [← hframe] at he hz hd
  exact Regs.Inv.of_keyRaw rfl he hz ⟨hc1, hc2, hc3⟩ (by simp only [hklen]; omega) hd

/-- Below the eighth character `BN` counts without wrapping. -/
theorem bn_succ_toNat {r : Regs} (h : r.bn.toNat < 7) : (r.bn + 1).toNat = r.bn.toNat + 1 := by
  rw [BitVec.toNat_add]
  exact Nat.mod_eq_of_lt (by simp; omega)

theorem enterChar_groupOpen {r : Regs} {v : BitVec 5} {pads : Nat} (hg : r.GroupOpen) (hbn : r.bn.toNat < 7)
    (hpads : pads ≤ r.bpad.toNat + 1) : (r.enterChar v pads).GroupOpen := by
  obtain ⟨hbpad, hbacc⟩ := hg
  constructor
  · simp only [Regs.enterChar, bn_succ_toNat hbn, BitVec.toNat_ofNat]
    exact (Nat.mod_le _ _).trans (by omega)
  · have hpow : 2 ^ (5 * (r.bn.toNat + 1)) = 2 ^ (5 * r.bn.toNat) * 32 := by rw [Nat.mul_succ, pow_add]; rfl
    simp only [Regs.enterChar, bn_succ_toNat hbn, hpow]
    calc (r.bacc * 32 + v.setWidth 40).toNat
        ≤ r.bacc.toNat * 32 + v.toNat := by bv_omega
      _ < 2 ^ (5 * r.bn.toNat) * 32 := by have := v.isLt; omega

theorem kcharRule_inv {keyMax : Nat} {c : Byte} {r r' : Regs} {d : Byte} (hk : keyMax < 2 ^ 64) (hi : r.Inv keyMax)
    (hp : r.phase = .idle ∨ r.phase = .keyB32) (h : kcharRule keyMax c r = .ok (r', d)) : r'.Inv keyMax := by
  have hload : r.phase.loading := hp.imp_right .inr
  have hl := hi.keyLoading hload
  obtain ⟨he, hz⟩ := hi.results_zero_of_loading hload
  obtain ⟨hbend, v, pads, hpads, hacc⟩ := kcharRule_eq_ok h
  by_cases hbn : r.bn.toNat < 7
  · rw [acceptChar_of_lt hbn] at hacc
    cases hacc
    obtain ⟨hc1, hc2, hc3⟩ := hl
    refine Regs.Inv.of_keyB32 rfl he hz ⟨hc1, hc2, hc3⟩ (enterChar_groupOpen (hi.groupOpen hp) hbn hpads) ?_ ?_
    · simp [Regs.enterChar, hbend]
    · simp only [Regs.enterChar, bn_succ_toNat hbn]
      omega
  · rw [acceptChar_of_ge hbn] at hacc
    obtain ⟨n, q, hn, hpush, rfl⟩ := emitGroup_eq_ok hacc
    obtain ⟨hn1, hn5⟩ := nBytes_range hn
    obtain ⟨⟨hc1, hc2, hc3⟩, hklen⟩ := keyPushAll_keyLoading hk hl hpush
    rw [← keyPushAll_frame hpush] at he hz
    refine Regs.Inv.of_keyB32 rfl he hz ⟨hc1, hc2, hc3⟩ ⟨by simp, by simp⟩ (fun _ => rfl) ?_
    simp only [hklen, groupBytes, List.length_take, List.length_cons, List.length_nil]
    omega

theorem kendRule_inv {keyMax : Nat} {r r' : Regs} {d : Byte} (hi : r.Inv keyMax) (hp : r.phase.loading)
    (h : kendRule r = .ok (r', d)) : r'.Inv keyMax := by
  obtain ⟨hbn, rfl⟩ := kendRule_eq_ok h
  obtain ⟨he, hz⟩ := hi.results_zero_of_loading hp
  exact Regs.Inv.of_keyed rfl he hz ⟨rfl, rfl, rfl, rfl, hbn, rfl, rfl⟩

/-- `CTR` is free in every phase but `ERROR` (R39). -/
theorem inv_with_ctr {keyMax : Nat} {r : Regs} (hi : r.Inv keyMax) (hp : r.phase ≠ .error) (c : BitVec 64) :
    ({ r with ctr := c } : Regs).Inv keyMax where
  error_iff := hi.error_iff
  errc_codes := hi.errc_codes
  error_zero he := absurd he hp
  idle_zero h := by conv_lhs => rw [hi.idle_zero h]
  keyRaw := hi.keyRaw
  keyB32 := hi.keyB32
  loading := hi.loading
  keyed := hi.keyed
  done := hi.done
  unset_zero := hi.unset_zero
  notDone := hi.notDone

theorem hmac_inv {keyMax : Nat} {r : Regs} (hi : r.Inv keyMax) (hp : r.phase = .keyed) (dg : Vector Byte 20) :
    ({ r with dg := dg, k0 := Vector.replicate 64 0, phase := .done } : Regs).Inv keyMax := by
  have he : r.errc = 0 := hi.errc_zero (by simp [hp])
  have hz : r.ResultsZero := hi.notDone (by simp [hp])
  have hkey : r.KeyPathZero := hi.keyed hp
  have hu := hz.unset_zero
  obtain ⟨-, htr, -, htv, hcv⟩ := hz
  exact Regs.Inv.of_done rfl he ⟨rfl, hkey, by simp [hcv], by simp [htv], by simp [hcv], by simp [htr]⟩ hu

/-- The top bit of a big-endian word is that of its first byte (R11). -/
theorem u32be_getLsbD_31 (b0 b1 b2 b3 : Byte) : (u32be b0 b1 b2 b3).getLsbD 31 = b0.getLsbD 7 := by
  have h : (b0 ++ b1 ++ b2 ++ b3 : BitVec (8 + 8 + 8 + 8)).getLsbD 31 = b0.getLsbD 7 := by
    simp only [BitVec.getLsbD_append]; rfl
  exact h

/-- The top bit of a truncation is clear (R160). -/
theorem dynTrunc_getLsbD_31 (d : Vector Byte 20) : (dynTrunc d).getLsbD 31 = false := by
  unfold dynTrunc
  simp only [u32be_getLsbD_31, BitVec.getLsbD_and]
  exact Bool.and_false _

theorem trunc_inv {keyMax : Nat} {r : Regs} (hi : r.Inv keyMax) (hp : r.phase = .done) :
    ({ r with tr := dynTrunc r.dg, tv := true } : Regs).Inv keyMax := by
  obtain ⟨hk0, hkey, hcv, htr, hcode, -⟩ := hi.done hp
  have hsame : r.cv = true → r.code = digits (reduceCode (dynTrunc r.dg)) := fun h => by
    rw [← htr (hcv h)]; exact hcode h
  exact Regs.Inv.of_done hp (hi.errc_zero (by simp [hp]))
    ⟨hk0, hkey, fun _ => rfl, fun _ => rfl, hsame, dynTrunc_getLsbD_31 _⟩ ⟨by simp, hi.unset_zero.2⟩

theorem reduceRule_inv {keyMax : Nat} {r r' : Regs} {d : Byte} (hi : r.Inv keyMax) (hp : r.phase = .done)
    (h : reduceRule r = .ok (r', d)) : r'.Inv keyMax := by
  obtain ⟨htv, rfl⟩ := reduceRule_eq_ok h
  obtain ⟨hk0, hkey, -, htr, -, htop⟩ := hi.done hp
  exact Regs.Inv.of_done hp (hi.errc_zero (by simp [hp]))
    ⟨hk0, hkey, fun _ => htv, htr, fun _ => rfl, htop⟩ ⟨hi.unset_zero.1, by simp⟩

end Sys2Proof.Machine
end

section
/-! SUPPORT. The invariant of R39 along steps and runs, and the statements about it. -/

namespace Sys2Proof.Machine

open Sys2Proof

/-- Every rule that runs and answers keeps the invariant (R39). -/
theorem ruleOf_inv {keyMax : Nat} {i : Instr} {r r' : Regs} {d : Byte} (hk : keyMax < 2 ^ 64) (hi : r.Inv keyMax)
    (hl : legality i r.phase = .ok) (h : ruleOf keyMax i r = .ok (r', d)) : r'.Inv keyMax := by
  cases i with
  | clr => cases h; exact zero_inv keyMax
  | rdst | rderr => cases h; exact hi
  | kbyte b => exact kbyteRule_inv hk hi (legality_kbyte_ok.mp hl) h
  | kchar c => exact kcharRule_inv hk hi (legality_kchar_ok.mp hl) h
  | kend => exact kendRule_inv hi (legality_kend_ok.mp hl) h
  | cbyte b => cases h; exact inv_with_ctr hi (legality_cbyte_ok.mp hl).2 _
  | hmac => cases h; exact hmac_inv hi (legality_hmac_ok.mp hl) _
  | trunc => cases h; exact trunc_inv hi (legality_trunc_ok.mp hl)
  | reduce => exact reduceRule_inv hi (legality_reduce_ok.mp hl) h
  | rdb idx => rw [rdbRule_eq_ok h]; exact hi

theorem raiseFault_inv {s : State} (e : Exc) (hs : Inv s) : Inv (raiseFault e s) := by
  by_cases hp : s.regs.phase = .error
  · rw [raiseFault_of_error e hp]; exact hs
  · rw [raiseFault_of_ne e hp]; exact ⟨hs.1, faultRegs_inv _ e⟩

theorem exec_inv {i : Instr} {s t : State} (hwf : i.wellFormed = true) (hs : Inv s) (h : exec i s = .next t) :
    Inv t := by
  have hk : s.cfg.keyMax < 2 ^ 64 := by
    obtain ⟨-, hmax⟩ := hs.1
    omega
  rw [exec_eq_runCommand hwf] at h
  obtain ⟨-, he⟩ | ⟨-, he⟩ | ⟨-, e, -, he⟩ | ⟨hl, r, d, hr, he⟩ := runCommand_cases i (ruleOf s.cfg.keyMax i) s <;>
    rw [he] at h <;> cases h
  · exact hs
  · exact raiseFault_inv _ hs
  · exact raiseFault_inv e hs
  · exact ⟨hs.1, ruleOf_inv hk hs.2 hl hr⟩

/-- The step lemma of R39: whatever the host does next. -/
theorem step_inv {s t : State} (hs : Inv s) (h : step s = .next t) : Inv t := by
  obtain ⟨-, he⟩ | ⟨rest, -, he⟩ | ⟨w, rest, i, -, hd, he⟩ | ⟨w, rest, e, -, -, he⟩ := step_cases s <;> rw [he] at h
  · cases h; exact hs
  · cases h; exact ⟨hs.1, zero_inv _⟩
  · obtain ⟨-, -, hwf⟩ := fields_of_decode hd
    exact exec_inv (s := { s with inbox := rest }) hwf hs h
  · cases h
    exact raiseFault_inv (s := { s with inbox := rest }) .illegalCommand hs

/-- What every step keeps, a run keeps. -/
theorem runSteps_keeps {P : State → Prop} (hstep : ∀ s t, P s → step s = .next t → P t) {n : Nat} {s t : State}
    (hs : P s) (h : runSteps n s = .next t) : P t := by
  induction n generalizing s with
  | zero => cases h; exact hs
  | succ n ih =>
    cases hu : step s with
    | next u => rw [runSteps_succ hu] at h; exact ih (hstep s u hs hu) h
    | fault f => simp [runSteps, hu] at h
    | refused r => simp [runSteps, hu] at h

theorem default_wf : Config.default.Wf := ⟨by decide, by decide⟩

/-- Settles O31: the default platform is in its range and `S0` meets every item of R39. -/
theorem invariantHoldsAtReset : Obligations.InvariantHoldsAtReset :=
  ⟨default_wf, zero_inv _⟩

/-- Settles O32, by the step lemma and, from reset on, induction over the run. -/
theorem everyStepKeepsTheInvariant : Obligations.EveryStepKeepsTheInvariant :=
  ⟨fun _ _ => step_inv, fun _ _ _ => runSteps_keeps (fun _ _ => step_inv) invariantHoldsAtReset⟩

/-- Settles O25: `S0`, register by register (R38). -/
theorem resetRegistersAreZero : Obligations.ResetRegistersAreZero := by
  unfold Obligations.ResetRegistersAreZero
  simp [State.reset]

end Sys2Proof.Machine
end

section
/-! SUPPORT. The law of R36: engines that agree in all that decides a fault or a status answer alike. -/

namespace Sys2Proof.Machine

open Sys2Proof

/-- Two sets of registers that agree in all that decides `PHASE`, the flags and the faults (R36 (a), (b)); the key, the
counter and what is computed from them may differ (R36 (c)). -/
structure SameControl (r q : Regs) : Prop where
  phase : r.phase = q.phase
  errc : r.errc = q.errc
  tv : r.tv = q.tv
  cv : r.cv = q.cv
  klen : r.klen = q.klen
  bacc : r.bacc = q.bacc
  bn : r.bn = q.bn
  bpad : r.bpad = q.bpad
  bend : r.bend = q.bend

theorem SameControl.refl (r : Regs) : SameControl r r := ⟨rfl, rfl, rfl, rfl, rfl, rfl, rfl, rfl, rfl⟩

theorem SameControl.publicView_eq {r q : Regs} (h : SameControl r q) : publicView r = publicView q := by
  simp [publicView, h.phase, h.errc, h.tv, h.cv]

/-- Two results of an operation that may raise: the same fault, or values that `R` relates. -/
inductive Alike {α : Type} (R : α → α → Prop) : Except Exc α → Except Exc α → Prop where
  /-- Both raise the same fault. -/
  | raise (e : Exc) : Alike R (.error e) (.error e)
  /-- Neither raises. -/
  | value {a b : α} (h : R a b) : Alike R (.ok a) (.ok b)

/-- What two rules answer: control in agreement, and equal data unless the command reads hidden data. -/
def SameAnswer (hidden : Prop) (p p' : Regs × Byte) : Prop := SameControl p.1 p'.1 ∧ (¬ hidden → p.2 = p'.2)

/-- An answer without data to read. -/
theorem alike_of_sameControl {hidden : Prop} {r q : Regs} (d : Byte) (h : SameControl r q) :
    Alike (SameAnswer hidden) (.ok (r, d)) (.ok (q, d)) :=
  .value ⟨h, fun _ => rfl⟩

/-! ### The rules -/

/-- Neither whether a push overflows nor what it does to `KLEN` depends on the byte (R117). -/
theorem keyPush_alike {r q : Regs} (h : SameControl r q) (keyMax : Nat) (b c : Byte) :
    Alike SameControl (keyPush keyMax b r) (keyPush keyMax c q) := by
  have hklen : r.klen + 1 = q.klen + 1 := by rw [h.klen]
  unfold keyPush
  rw [h.klen]
  split
  · exact .raise _
  · split
    · exact .value { h with klen := rfl }
    · exact .value { h with klen := hklen }

theorem keyPushAll_alike {r q : Regs} (h : SameControl r q) (keyMax : Nat) (bs : List Byte) :
    Alike SameControl (keyPushAll keyMax bs r) (keyPushAll keyMax bs q) := by
  induction bs generalizing r q with
  | nil => exact .value h
  | cons b bs ih =>
    have hp := keyPush_alike h keyMax b b
    unfold keyPushAll
    generalize keyPush keyMax b r = x, keyPush keyMax b q = y at hp ⊢
    cases hp with
    | raise e => exact .raise e
    | value hc => exact ih hc

theorem kbyteRule_alike {hidden : Prop} {r q : Regs} (h : SameControl r q) (keyMax : Nat) (b c : Byte) :
    Alike (SameAnswer hidden) (kbyteRule keyMax b r) (kbyteRule keyMax c q) := by
  have hp := keyPush_alike h keyMax b c
  unfold kbyteRule
  generalize keyPush keyMax b r = x, keyPush keyMax c q = y at hp ⊢
  cases hp with
  | raise e => exact .raise e
  | value hc => exact alike_of_sameControl 0 { hc with phase := rfl }

theorem emitGroup_alike {hidden : Prop} {r q : Regs} (h : SameControl r q) (keyMax : Nat) (acc : BitVec 40)
    (pads : Nat) : Alike (SameAnswer hidden) (emitGroup keyMax acc pads r) (emitGroup keyMax acc pads q) := by
  unfold emitGroup
  cases nBytes pads with
  | none => exact .raise _
  | some n =>
    have hp := keyPushAll_alike h keyMax ((groupBytes acc).take n)
    dsimp only
    generalize keyPushAll keyMax _ r = x, keyPushAll keyMax _ q = y at hp ⊢
    cases hp with
    | raise e => exact .raise e
    | value hc =>
      exact alike_of_sameControl 0 { hc with phase := rfl, bacc := rfl, bn := rfl, bpad := rfl, bend := rfl }

theorem acceptChar_alike {hidden : Prop} {r q : Regs} (h : SameControl r q) (keyMax : Nat) (v : BitVec 5) (pads : Nat) :
    Alike (SameAnswer hidden) (acceptChar keyMax v pads r) (acceptChar keyMax v pads q) := by
  by_cases hbn : q.bn.toNat < 7
  · rw [acceptChar_of_lt hbn, acceptChar_of_lt (by rwa [h.bn])]
    refine alike_of_sameControl 0 { h with phase := rfl, bpad := rfl, bacc := ?_, bn := ?_ } <;>
      simp [Regs.enterChar, h.bacc, h.bn]
  · rw [acceptChar_of_ge hbn, acceptChar_of_ge (by rwa [h.bn]), h.bacc]
    exact emitGroup_alike h keyMax _ pads

theorem kcharRule_alike {hidden : Prop} {r q : Regs} (h : SameControl r q) (keyMax : Nat) (c : Byte) :
    Alike (SameAnswer hidden) (kcharRule keyMax c r) (kcharRule keyMax c q) := by
  unfold kcharRule
  rw [h.bend, h.bpad]
  split
  · exact .raise _
  · split
    · exact acceptChar_alike h keyMax 0 _
    · split
      · exact .raise _
      · split
        · exact .raise _
        · exact acceptChar_alike h keyMax _ _

theorem kendRule_alike {hidden : Prop} {r q : Regs} (h : SameControl r q) :
    Alike (SameAnswer hidden) (kendRule r) (kendRule q) := by
  unfold kendRule
  rw [h.bn]
  split
  · exact .raise _
  · exact alike_of_sameControl 0 { h with phase := rfl, klen := rfl, bacc := rfl, bn := rfl, bpad := rfl, bend := rfl }

theorem reduceRule_alike {hidden : Prop} {r q : Regs} (h : SameControl r q) :
    Alike (SameAnswer hidden) (reduceRule r) (reduceRule q) := by
  unfold reduceRule
  rw [h.tv]
  split
  · exact alike_of_sameControl 0 { h with tv := rfl, cv := rfl }
  · exact .raise _

/-- The window has thirty bytes (R51). -/
theorem windowByte_eq_none_iff {r : Regs} {a : Nat} : windowByte r a = none ↔ 30 ≤ a := by
  simp [windowByte]

theorem windowValid_eq {r q : Regs} (h : SameControl r q) (a : Nat) : windowValid r a = windowValid q a := by
  simp only [windowValid, h.tv, h.cv]

/-- `RDB` faults or not by the flags alone; its data may differ (R36 (c)). -/
theorem rdbRule_alike {hidden : Prop} (hh : hidden) {r q : Regs} (h : SameControl r q) (idx : BitVec 5) :
    Alike (SameAnswer hidden) (rdbRule idx r) (rdbRule idx q) := by
  unfold rdbRule
  rw [windowValid_eq h]
  split
  · have hnone : windowByte r idx.toNat = none ↔ windowByte q idx.toNat = none := by
      rw [windowByte_eq_none_iff, windowByte_eq_none_iff]
    cases hr : windowByte r idx.toNat <;> cases hq : windowByte q idx.toNat <;> simp only [hr, hq] at hnone ⊢
    · exact .raise _
    · simp at hnone
    · simp at hnone
    · exact .value ⟨h, absurd hh⟩
  · exact .raise _

/-! ### The commands -/

/-- Two commands that differ at most in the byte of a `KBYTE` or of a `CBYTE` (R36). -/
inductive SameButByte : Instr → Instr → Prop where
  /-- The same command. -/
  | same (i : Instr) : SameButByte i i
  /-- Two raw key bytes. -/
  | kbyte (b c : Byte) : SameButByte (.kbyte b) (.kbyte c)
  /-- Two counter bytes. -/
  | cbyte (b c : Byte) : SameButByte (.cbyte b) (.cbyte c)

theorem legality_of_sameButByte {i j : Instr} (h : SameButByte i j) (p : Phase) : legality i p = legality j p := by
  cases h <;> rfl

/-- Every rule respects agreement of the control; only `RDB`, of opcode 0x50, reads what may differ. -/
theorem ruleOf_alike {i j : Instr} {r q : Regs} (hij : SameButByte i j) (h : SameControl r q) (keyMax : Nat) :
    Alike (SameAnswer (opcode i = 0x50)) (ruleOf keyMax i r) (ruleOf keyMax j q) := by
  cases hij with
  | kbyte b c => exact kbyteRule_alike h keyMax b c
  | cbyte b c => exact alike_of_sameControl 0 { h with }
  | same =>
    cases i with
    | clr => exact alike_of_sameControl 0 (.refl _)
    | rdst =>
      have hst : statusByte r = statusByte q := by simp [statusByte, h.phase, h.tv, h.cv]
      exact .value ⟨h, fun _ => hst⟩
    | rderr => exact .value ⟨h, fun _ => h.errc⟩
    | kbyte b => exact kbyteRule_alike h keyMax b b
    | kchar c => exact kcharRule_alike h keyMax c
    | kend => exact kendRule_alike h
    | cbyte b => exact alike_of_sameControl 0 { h with }
    | hmac => exact alike_of_sameControl 0 { h with phase := rfl }
    | trunc => exact alike_of_sameControl 0 { h with tv := rfl }
    | reduce => exact reduceRule_alike h
    | rdb idx => exact rdbRule_alike rfl h idx

/-- Two engines of one platform whose control agrees. -/
structure Twins (s u : State) : Prop where
  cfg : s.cfg = u.cfg
  control : SameControl s.regs u.regs

/-- Two outcomes, from `s` and `u`, of one command each: one response each, equal unless hidden data is read, and twins
again. -/
def AnswerAlike (hidden : Prop) (s u : State) (o p : Host.Outcome State Fault Refusal) : Prop :=
  ∃ (t t' : State) (rsp rsp' : RspWord), o = .next t ∧ p = .next t' ∧ Twins t t' ∧
    t.inbox = s.inbox ∧ t'.inbox = u.inbox ∧ t.outbox = s.outbox ++ [rsp] ∧ t'.outbox = u.outbox ++ [rsp'] ∧
    (¬ hidden → rsp = rsp')

theorem refuse_alike {hidden : Prop} {s u : State} (h : Twins s u) :
    AnswerAlike hidden s u (.next (refuse s)) (.next (refuse u)) :=
  ⟨_, _, faultRsp, faultRsp, rfl, rfl, ⟨h.cfg, h.control⟩, rfl, rfl, rfl, rfl, fun _ => rfl⟩

theorem raiseFault_alike {hidden : Prop} {s u : State} (h : Twins s u) (e : Exc) :
    AnswerAlike hidden s u (.next (raiseFault e s)) (.next (raiseFault e u)) := by
  by_cases hp : s.regs.phase = .error
  · rw [raiseFault_of_error e hp, raiseFault_of_error e (h.control.phase ▸ hp)]
    exact refuse_alike h
  · rw [raiseFault_of_ne e hp, raiseFault_of_ne e (h.control.phase ▸ hp)]
    exact ⟨_, _, faultRsp, faultRsp, rfl, rfl, ⟨h.cfg, .refl _⟩, rfl, rfl, rfl, rfl, fun _ => rfl⟩

theorem runCommand_alike {hidden : Prop} {i j : Instr} {f g : Regs → Effect} {s u : State} (h : Twins s u)
    (hl : legality i s.regs.phase = legality j u.regs.phase)
    (hr : Alike (SameAnswer hidden) (f s.regs) (g u.regs)) :
    AnswerAlike hidden s u (runCommand i f s) (runCommand j g u) := by
  cases hj : legality j u.regs.phase with
  | refused =>
    rw [runCommand_refused (hl.trans hj), runCommand_refused hj]
    exact refuse_alike h
  | seq =>
    rw [runCommand_seq (hl.trans hj), runCommand_seq hj]
    exact raiseFault_alike h _
  | ok =>
    generalize hf : f s.regs = x, hg : g u.regs = y at hr
    cases hr with
    | raise e =>
      rw [runCommand_raise (hl.trans hj) hf, runCommand_raise hj hg]
      exact raiseFault_alike h e
    | value ha =>
      obtain ⟨hc, hd⟩ := ha
      rw [runCommand_ok (hl.trans hj) hf, runCommand_ok hj hg]
      exact ⟨_, _, _, _, rfl, rfl, ⟨h.cfg, hc⟩, rfl, rfl, rfl, rfl, fun hh => congrArg okRsp (hd hh)⟩

theorem exec_alike {i j : Instr} {s u : State} (hij : SameButByte i j) (hi : i.wellFormed = true)
    (hj : j.wellFormed = true) (h : Twins s u) : AnswerAlike (opcode i = 0x50) s u (exec i s) (exec j u) := by
  rw [exec_eq_runCommand hi, exec_eq_runCommand hj, h.cfg]
  refine runCommand_alike h ?_ (ruleOf_alike hij h.control u.cfg.keyMax)
  rw [h.control.phase, legality_of_sameButByte hij]

/-! ### Steps and runs -/

/-- Words that differ at most in a secret immediate decode to commands that differ at most in that byte, or neither
decodes. -/
theorem decode_of_sameButSecret {w v : CmdWord} (h : SameButSecret w v) :
    (∃ i j, decode w = .ok i ∧ decode v = .ok j ∧ SameButByte i j) ∨
    (∃ e e', decode w = .error e ∧ decode v = .error e') := by
  obtain rfl | ⟨hop, hw | hw⟩ := h
  · cases hd : decode w with
    | ok i => exact .inl ⟨i, i, rfl, rfl, .same i⟩
    | error e => exact .inr ⟨e, e, rfl, rfl⟩
  · exact .inl ⟨_, _, decode_of_opField_kbyte hw, decode_of_opField_kbyte (hop ▸ hw), .kbyte _ _⟩
  · exact .inl ⟨_, _, decode_of_opField_cbyte hw, decode_of_opField_cbyte (hop ▸ hw), .cbyte _ _⟩

theorem step_alike {s u : State} {w v : CmdWord} {rest rest' : List HostEvent} (hs : s.inbox = .command w :: rest)
    (hu : u.inbox = .command v :: rest') (hwv : SameButSecret w v) (h : Twins s u) :
    AnswerAlike (opField w = 0x50) { s with inbox := rest } { u with inbox := rest' } (step s) (step u) := by
  have h' : Twins { s with inbox := rest } { u with inbox := rest' } := ⟨h.cfg, h.control⟩
  obtain ⟨i, j, hi, hj, hij⟩ | ⟨e, e', hi, hj⟩ := decode_of_sameButSecret hwv
  · obtain ⟨hop, -, hwfi⟩ := fields_of_decode hi
    obtain ⟨-, -, hwfj⟩ := fields_of_decode hj
    simp only [step, hs, hu, hi, hj, ← hop]
    exact exec_alike hij hwfi hwfj h'
  · simp only [step, hs, hu, hi, hj]
    exact raiseFault_alike h' .illegalCommand

/-- The law of R36 from two engines in agreement. -/
theorem runSteps_alike {ws vs : List CmdWord} (hwv : List.Forall₂ SameButSecret ws vs) {s u : State}
    {rest rest' : List HostEvent} (hs : s.inbox = ws.map .command ++ rest) (hu : u.inbox = vs.map .command ++ rest')
    (h : Twins s u) :
    ∃ (t t' : State) (rs qs : List RspWord),
      runSteps ws.length s = .next t ∧ runSteps vs.length u = .next t' ∧ Twins t t' ∧
      t.outbox = s.outbox ++ rs ∧ t'.outbox = u.outbox ++ qs ∧ rs.length = ws.length ∧ qs.length = vs.length ∧
      ∀ k (h : k < ws.length), opField ws[k] ≠ 0x50 → rs[k]? = qs[k]? := by
  induction hwv generalizing s u with
  | nil => exact ⟨s, u, [], [], rfl, rfl, h, by simp, by simp, rfl, rfl, by simp⟩
  | cons hhead _ ih =>
    obtain ⟨t, t', rsp, rsp', hst, hsu, ht, hin, hin', hout, hout', hrsp⟩ := step_alike hs hu hhead h
    obtain ⟨x, x', rs, qs, hrun, hrun', hx, hrs, hqs, hlen, hlen', heq⟩ := ih hin hin' ht
    refine ⟨x, x', rsp :: rs, rsp' :: qs, (runSteps_succ hst).trans hrun, (runSteps_succ hsu).trans hrun', hx,
      by simp [hrs, hout], by simp [hqs, hout'], by simp [hlen], by simp [hlen'], fun k hk hop => ?_⟩
    cases k with
    | zero => simpa using hrsp hop
    | succ k => exact heq k (Nat.lt_of_succ_lt_succ hk) hop

/-- Settles O34: a state is its own twin, and a run of two such sequences keeps twins. -/
theorem secretBytesDoNotShow : Obligations.SecretBytesDoNotShow := by
  unfold Obligations.SecretBytesDoNotShow
  intro s ws vs hwv
  obtain ⟨t, u, rs, qs, ht, hu, htwins, hrest⟩ :=
    runSteps_alike hwv (s := issue ws s) (u := issue vs s) rfl rfl ⟨rfl, .refl _⟩
  exact ⟨t, u, rs, qs, ht, hu, htwins.control.publicView_eq, hrest⟩

end Sys2Proof.Machine
end

section
/-! SUPPORT. What a command that answers outside `ERROR` did, the end states of the claims, and the statements about the
reads and the reserved window indexes. -/

namespace Sys2Proof.Machine

open Sys2Proof

/-! ### The end states the claims name -/

/-- A raise outside `ERROR` is fault entry with the code of the fault (R190). -/
theorem raiseFault_eq_afterFault {s : State} (e : Exc) (h : s.regs.phase ≠ .error) :
    raiseFault e s = afterFault e.code s :=
  raiseFault_of_ne e h

/-- A raise in `ERROR` is a refusal (R190, R191). -/
theorem raiseFault_eq_afterRefusal {s : State} (e : Exc) (h : s.regs.phase = .error) :
    raiseFault e s = afterRefusal s :=
  raiseFault_of_error e h

/-! ### A command that neither faulted nor was refused -/

/-- Outside `ERROR` every answer is that of the command's rule: faults end in `ERROR`, refusals stay there (R70). -/
theorem runCommand_of_phase_ne_error {i : Instr} {rule : Regs → Effect} {s t : State}
    (h : runCommand i rule s = .next t) (ht : t.regs.phase ≠ .error) :
    legality i s.regs.phase = .ok ∧ ∃ d, rule s.regs = .ok (t.regs, d) := by
  obtain ⟨hl, he⟩ | ⟨-, he⟩ | ⟨-, e, -, he⟩ | ⟨hl, r, d, hr, he⟩ := runCommand_cases i rule s <;>
    rw [he] at h <;> cases h
  · exact absurd ((legality_refused_iff i _).mp hl).1 ht
  · exact absurd (raiseFault_phase _ s) ht
  · exact absurd (raiseFault_phase e s) ht
  · exact ⟨hl, d, hr⟩

/-- `RDB` with a reserved index takes `IllegalCommand` (R50, log entry 8). -/
theorem exec_rdb_of_reserved {idx : BitVec 5} (hidx : 30 ≤ idx.toNat) (s : State) :
    exec (.rdb idx) s = .next (raiseFault .illegalCommand s) :=
  if_pos hidx

/-- An answer outside `ERROR` is that of the command's rule, for every operand. -/
theorem exec_of_phase_ne_error {i : Instr} {s t : State} (h : exec i s = .next t) (ht : t.regs.phase ≠ .error) :
    legality i s.regs.phase = .ok ∧ ∃ d, ruleOf s.cfg.keyMax i s.regs = .ok (t.regs, d) := by
  by_cases hwf : i.wellFormed = true
  · rw [exec_eq_runCommand hwf] at h
    exact runCommand_of_phase_ne_error h ht
  · cases i with
    | rdb idx =>
      have hidx : 29 < idx.toNat := by simpa [Instr.wellFormed] using hwf
      rw [exec_rdb_of_reserved hidx] at h
      cases h
      exact absurd (raiseFault_phase _ s) ht
    | _ => exact absurd rfl hwf

/-! ### The reads -/

/-- The table lets `RDST` run in every phase (R78). -/
@[simp] theorem legality_rdst (p : Phase) : legality .rdst p = .ok := by cases p <;> rfl

/-- The table lets `RDERR` run in every phase (R78). -/
@[simp] theorem legality_rderr (p : Phase) : legality .rderr p = .ok := by cases p <;> rfl

/-- `RDST` only answers (R174). -/
theorem exec_rdst (s : State) : exec .rdst s = .next (respond (okRsp (statusByte s.regs)) s) :=
  (exec_eq_runCommand rfl s).trans (runCommand_ok (legality_rdst _) rfl)

/-- `RDERR` only answers (R175). -/
theorem exec_rderr (s : State) : exec .rderr s = .next (respond (okRsp s.regs.errc) s) :=
  (exec_eq_runCommand rfl s).trans (runCommand_ok (legality_rderr _) rfl)

/-- Settles O27: `RDST` and `RDERR` only answer, and an `RDB` that ends outside `ERROR` ran its rule. -/
theorem readsChangeNothing : Obligations.ReadsChangeNothing := by
  unfold Obligations.ReadsChangeNothing
  intro s t
  refine ⟨fun h => ?_, fun h => ?_, fun idx h ht => ?_⟩
  · rw [exec_rdst] at h
    cases h
    rfl
  · rw [exec_rderr] at h
    cases h
    rfl
  · obtain ⟨-, d, hr⟩ := exec_of_phase_ne_error h ht
    exact rdbRule_eq_ok hr

/-- Settles O23: the raise of `IllegalCommand`, outside `ERROR` and in it. -/
theorem reservedIndexIsIllegal : Obligations.ReservedIndexIsIllegal := by
  unfold Obligations.ReservedIndexIsIllegal
  intro s idx hidx
  rw [exec_rdb_of_reserved hidx]
  exact ⟨fun hp => congrArg _ (raiseFault_eq_afterFault _ hp), fun hp => congrArg _ (raiseFault_eq_afterRefusal _ hp)⟩

end Sys2Proof.Machine
end

section
/-! SUPPORT. Decoder and encoder are inverse to each other, the reserved words, the assembler, and the statements about
them. -/

namespace Sys2Proof.Machine

open Sys2Proof

/-! ### The round trip -/

@[simp] theorem opField_encode (i : Instr) : opField (encode i) = opcode i := opField_append _ _

@[simp] theorem immField_encode (i : Instr) : immField (encode i) = lowByte i := immField_append _ _

/-- Format X: the low byte of the word of `RDB` is its index (R71). -/
theorem decodeIndex_encode_rdb {idx : BitVec 5} (h : (Instr.rdb idx).wellFormed = true) :
    decodeIndex (encode (.rdb idx)) = .ok (.rdb idx) := by
  have hidx : idx.toNat ≤ 29 := by simpa [Instr.wellFormed] using h
  have hlow : immField (encode (.rdb idx)) = idx.setWidth 8 := immField_encode _
  have hnat : (idx.setWidth 8).toNat = idx.toNat := by rw [BitVec.toNat_setWidth]; omega
  rw [decodeIndex_eq_ok, hlow, hnat]
  exact ⟨hidx, congrArg Instr.rdb (BitVec.eq_of_toNat_eq (by rw [BitVec.toNat_setWidth, hnat]; omega))⟩

/-- The word of a well-formed command decodes to it: the opcode byte selects its row, the low byte is its operand (R74). -/
theorem decode_encode {i : Instr} (hi : i.wellFormed = true) : decode (encode i) = .ok i := by
  unfold decode
  rw [opField_encode]
  cases i with
  | kbyte b | kchar b | cbyte b => rw [immField_encode]; rfl
  | rdb idx => exact decodeIndex_encode_rdb hi
  | _ => exact decodeNone_eq_ok.mpr ⟨immField_encode _, rfl⟩

/-- Settles O2: the round trip, row by row. -/
theorem decodeOfEncodeIsTheCommand : Obligations.DecodeOfEncodeIsTheCommand :=
  fun _ => decode_encode

/-- Settles O3: a decoded command has the word's two fields, and a word is its two fields. -/
theorem encodeOfDecodeIsTheWord : Obligations.EncodeOfDecodeIsTheWord := by
  unfold Obligations.EncodeOfDecodeIsTheWord
  intro w i h
  obtain ⟨hop, hlow, hwf⟩ := fields_of_decode h
  refine ⟨?_, hwf⟩
  rw [encode, hop, hlow, opField_append_immField]

/-- Settles O1: eleven closed evaluations of the decoder. -/
theorem decodesSampleWords : Obligations.DecodesSampleWords := by
  unfold Obligations.DecodesSampleWords
  decide

/-! ### The reserved words -/

/-- Format N rejects exactly a nonzero low byte (R75). -/
theorem decodeNone_error_iff {w : CmdWord} {i : Instr} :
    (∃ e, decodeNone w i = .error e) ↔ (immField w).toNat ≠ 0 := by
  unfold decodeNone
  split <;> simp_all [BitVec.toNat_eq]

/-- Format X rejects exactly a low byte of 30 or more (R75). -/
theorem decodeIndex_error_iff {w : CmdWord} : (∃ e, decodeIndex w = .error e) ↔ 30 ≤ (immField w).toNat := by
  unfold decodeIndex
  split <;> simp <;> omega

/-- The undecodable words are the three kinds of R75. -/
theorem decode_error_iff (w : CmdWord) : (∃ e, decode w = .error e) ↔
    (opField w).toNat ∉ [0x01, 0x02, 0x03, 0x12, 0x13, 0x14, 0x20, 0x30, 0x40, 0x41, 0x50] ∨
    ((opField w).toNat ∈ [0x01, 0x02, 0x03, 0x14, 0x30, 0x40, 0x41] ∧ (immField w).toNat ≠ 0) ∨
    ((opField w).toNat = 0x50 ∧ 30 ≤ (immField w).toNat) := by
  unfold decode
  split
  case h_4 hop | h_5 hop | h_7 hop => simp [hop]
  case h_11 hop => simp [hop, decodeIndex_error_iff]
  case h_12 => simp_all [BitVec.toNat_eq]
  all_goals simp [‹opField w = _›, decodeNone_error_iff]

/-- Settles O4: the reserved words do not decode, and a word that does not raises `IllegalCommand` (R187). -/
theorem reservedWordsRaiseIllegalCommand : Obligations.ReservedWordsRaiseIllegalCommand := by
  unfold Obligations.ReservedWordsRaiseIllegalCommand
  intro s w rest hs op low reserved
  have hiff : (∃ e, decode w = .error e) ↔ reserved := by
    simpa only [reserved, op, low, opField_toNat, immField_toNat] using decode_error_iff w
  have hstep (hr : reserved) : step s = .next (raiseFault .illegalCommand { s with inbox := rest }) := by
    obtain ⟨e, he⟩ := hiff.mpr hr
    simp [step, hs, he, execIllegal]
  refine ⟨fun hr hp => ?_, fun hr hp => ?_, hiff⟩
  · exact (hstep hr).trans (congrArg _ (raiseFault_eq_afterFault _ hp))
  · exact (hstep hr).trans (congrArg _ (raiseFault_eq_afterRefusal _ hp))

/-! ### The assembler -/

/-- The largest operand of a format (R71). -/
def Format.maxOperand : Format → Nat
  | .n => 0
  | .d => 255
  | .x => 29

/-- A row of the mnemonic table stands for well-formed commands, one for each operand of its format (R73, R90). -/
def RowHasCommands (op : Nat) (f : Format) : Prop :=
  ∀ v ≤ f.maxOperand, ∃ i : Instr, i.wellFormed = true ∧ (opcode i).toNat = op ∧ (lowByte i).toNat = v

theorem rowHasCommands_n (i : Instr) (hwf : i.wellFormed = true) (hlow : lowByte i = 0) :
    RowHasCommands (opcode i).toNat .n := by
  intro v hv
  have hz : v = 0 := Nat.le_zero.mp hv
  exact ⟨i, hwf, rfl, by rw [hlow, hz]; rfl⟩

theorem rowHasCommands_d {op : Nat} (mk : Byte → Instr)
    (h : ∀ b, (mk b).wellFormed = true ∧ (opcode (mk b)).toNat = op ∧ lowByte (mk b) = b) : RowHasCommands op .d := by
  intro v hv
  have hmax : v ≤ 255 := hv
  obtain ⟨hwf, hop, hlow⟩ := h (.ofNat 8 v)
  exact ⟨_, hwf, hop, by rw [hlow, BitVec.toNat_ofNat]; omega⟩

theorem rowHasCommands_rdb : RowHasCommands 0x50 .x := by
  intro v hv
  have hmax : v ≤ 29 := hv
  have hidx : (BitVec.ofNat 5 v).toNat = v := by rw [BitVec.toNat_ofNat]; omega
  refine ⟨.rdb (.ofNat 5 v), ?_, rfl, ?_⟩
  · simpa only [Instr.wellFormed, hidx, decide_eq_true_eq] using hmax
  · simp only [lowByte, BitVec.toNat_setWidth, hidx]; omega

/-- The table is read from its first row on. -/
theorem rowHasCommands_of_ite {p : Prop} [Decidable p] {op op' : Nat} {f f' : Format} {rest : Option (Nat × Format)}
    (h : (if p then some (op, f) else rest) = some (op', f')) (hrow : RowHasCommands op f)
    (hrest : rest = some (op', f') → RowHasCommands op' f') : RowHasCommands op' f' := by
  obtain ⟨-, h⟩ | ⟨-, h⟩ := ite_eq_iff.mp h
  · cases h; exact hrow
  · exact hrest h

/-- Every row of the mnemonic table has commands. -/
theorem mnemonicRow_hasCommands {m : List Char} {op : Nat} {f : Format} (h : mnemonicRow m = some (op, f)) :
    RowHasCommands op f := by
  unfold mnemonicRow at h
  exact
    rowHasCommands_of_ite h (rowHasCommands_n .clr rfl rfl) fun h =>
    rowHasCommands_of_ite h (rowHasCommands_n .rdst rfl rfl) fun h =>
    rowHasCommands_of_ite h (rowHasCommands_n .rderr rfl rfl) fun h =>
    rowHasCommands_of_ite h (rowHasCommands_d .kbyte fun _ => ⟨rfl, rfl, rfl⟩) fun h =>
    rowHasCommands_of_ite h (rowHasCommands_d .kchar fun _ => ⟨rfl, rfl, rfl⟩) fun h =>
    rowHasCommands_of_ite h (rowHasCommands_n .kend rfl rfl) fun h =>
    rowHasCommands_of_ite h (rowHasCommands_d .cbyte fun _ => ⟨rfl, rfl, rfl⟩) fun h =>
    rowHasCommands_of_ite h (rowHasCommands_n .hmac rfl rfl) fun h =>
    rowHasCommands_of_ite h (rowHasCommands_n .trunc rfl rfl) fun h =>
    rowHasCommands_of_ite h (rowHasCommands_n .reduce rfl rfl) fun h =>
    rowHasCommands_of_ite h rowHasCommands_rdb nofun

/-- The word of a command from its two bytes as numbers, as the assembler makes it (R90). -/
theorem encode_eq_ofNat (i : Instr) : encode i = BitVec.ofNat 16 ((opcode i).toNat * 256 + (lowByte i).toNat) := by
  rw [← append_toNat, BitVec.ofNat_toNat, BitVec.setWidth_eq]
  rfl

/-- What the assembler emits is a row's opcode with an operand its format admits (R90). -/
theorem asmWord_eq_some {m : List Char} {o : AsmOperand} {w : CmdWord} (h : asmWord m o = some w) :
    ∃ op f v, mnemonicRow m = some (op, f) ∧ v ≤ f.maxOperand ∧ w = BitVec.ofNat 16 (op * 256 + v) := by
  unfold asmWord at h
  split at h
  case h_1 op hrow => cases h; exact ⟨op, .n, 0, hrow, le_rfl, by simp⟩
  case h_2 op v hrow =>
    obtain ⟨hv, hw⟩ := Option.ite_none_right_eq_some.mp h
    exact ⟨op, .d, v, hrow, hv, (Option.some.inj hw).symm⟩
  case h_3 op v hrow =>
    obtain ⟨hv, hw⟩ := Option.ite_none_right_eq_some.mp h
    exact ⟨op, .d, v, hrow, hv.trans (by decide), (Option.some.inj hw).symm⟩
  case h_4 op v hrow =>
    obtain ⟨hv, hw⟩ := Option.ite_none_right_eq_some.mp h
    exact ⟨op, .x, v, hrow, hv, (Option.some.inj hw).symm⟩
  case h_5 => cases h

/-- Settles O50: each emitted word is the word of a well-formed command, which decodes to it. -/
theorem assemblerEmitsLegalWords : Obligations.AssemblerEmitsLegalWords := by
  unfold Obligations.AssemblerEmitsLegalWords
  intro m o w h
  obtain ⟨op, f, v, hrow, hv, rfl⟩ := asmWord_eq_some h
  obtain ⟨i, hwf, rfl, rfl⟩ := mnemonicRow_hasCommands hrow v hv
  rw [← encode_eq_ofNat]
  exact ⟨i, decode_encode hwf, hwf, rfl⟩

end Sys2Proof.Machine
end

section
/-! SUPPORT. What `exec` can do for every term, the response of every command, and the statements about the step. -/

namespace Sys2Proof.Machine

open Sys2Proof

/-! ### The response -/

/-- A response with `FAULT` = 0 is its data byte (R72). -/
theorem okRsp_toNat (d : Byte) : (okRsp d).toNat = d.toNat := by
  have := d.isLt
  rw [okRsp, BitVec.toNat_setWidth]; omega

theorem okRsp_toNat_le (d : Byte) : (okRsp d).toNat ≤ 0xFF := by
  have := d.isLt
  rw [okRsp_toNat]; omega

theorem okRsp_ne_faultRsp (d : Byte) : okRsp d ≠ faultRsp := by
  intro h
  have hle := okRsp_toNat_le d
  rw [h] at hle
  exact absurd hle (by decide)

/-! ### What the rules answer -/

theorem legality_rdb_ok {idx : BitVec 5} {p : Phase} : legality (.rdb idx) p = .ok ↔ p = .done := by
  cases p <;> simp [legality, legalityRow]

/-- An accepted character leaves the engine in `KEY_B32`, its data byte 0x00 (R122). -/
theorem acceptChar_phase_data {keyMax pads : Nat} {v : BitVec 5} {r r' : Regs} {d : Byte}
    (h : acceptChar keyMax v pads r = .ok (r', d)) : r'.phase = .keyB32 ∧ d = 0 := by
  by_cases hbn : r.bn.toNat < 7
  · rw [acceptChar_of_lt hbn] at h
    cases h
    exact ⟨rfl, rfl⟩
  · rw [acceptChar_of_ge hbn, emitGroup] at h
    split at h
    · cases h
    · split at h <;> cases h
      exact ⟨rfl, rfl⟩

/-- A rule that answers leaves the engine outside `ERROR`, but for the two reads that `ERROR` allows (R78, R190). -/
theorem ruleOf_phase_ne_error {keyMax : Nat} {i : Instr} {r r' : Regs} {d : Byte} (hst : i ≠ .rdst) (her : i ≠ .rderr)
    (hl : legality i r.phase = .ok) (h : ruleOf keyMax i r = .ok (r', d)) : r'.phase ≠ .error := by
  cases i with
  | clr | hmac => cases h; simp
  | rdst => exact absurd rfl hst
  | rderr => exact absurd rfl her
  | kbyte b => obtain ⟨q, -, rfl⟩ := kbyteRule_eq_ok h; simp
  | kchar c =>
    obtain ⟨-, v, pads, -, ha⟩ := kcharRule_eq_ok h
    simp [(acceptChar_phase_data ha).1]
  | kend => obtain ⟨-, rfl⟩ := kendRule_eq_ok h; simp
  | cbyte b => cases h; exact (legality_cbyte_ok.mp hl).2
  | trunc => cases h; simp [legality_trunc_ok.mp hl]
  | reduce => obtain ⟨-, rfl⟩ := reduceRule_eq_ok h; simp [legality_reduce_ok.mp hl]
  | rdb idx => rw [rdbRule_eq_ok h, legality_rdb_ok.mp hl]; simp

/-- The data byte of a command that reads nothing is 0x00 (R72). -/
theorem ruleOf_data_eq_zero {keyMax : Nat} {i : Instr} {r r' : Regs} {d : Byte} (hst : i ≠ .rdst) (her : i ≠ .rderr)
    (hrdb : ∀ idx, i ≠ .rdb idx) (h : ruleOf keyMax i r = .ok (r', d)) : d = 0 := by
  cases i with
  | clr | cbyte b | hmac | trunc => cases h; rfl
  | rdst => exact absurd rfl hst
  | rderr => exact absurd rfl her
  | kbyte b =>
    rw [ruleOf, kbyteRule] at h
    split at h <;> cases h
    rfl
  | kchar c =>
    obtain ⟨-, v, pads, -, ha⟩ := kcharRule_eq_ok h
    exact (acceptChar_phase_data ha).2
  | kend =>
    rw [ruleOf, kendRule] at h
    split at h <;> cases h
    rfl
  | reduce =>
    rw [ruleOf, reduceRule] at h
    split at h <;> cases h
    rfl
  | rdb idx => exact absurd rfl (hrdb idx)

/-! ### What a command can do -/

/-- Everything a command can do, reserved indexes included: it is refused, it raises, or its rule answers (R70). -/
theorem exec_cases (i : Instr) (s : State) :
    (legality i s.regs.phase = .refused ∧ exec i s = .next (refuse s)) ∨
    (∃ e, exec i s = .next (raiseFault e s)) ∨
    (legality i s.regs.phase = .ok ∧ ∃ r d, ruleOf s.cfg.keyMax i s.regs = .ok (r, d) ∧
      exec i s = .next (respond (okRsp d) { s with regs := r })) := by
  by_cases hwf : i.wellFormed = true
  · rw [exec_eq_runCommand hwf]
    obtain h | ⟨-, h⟩ | ⟨-, e, -, h⟩ | h := runCommand_cases i (ruleOf s.cfg.keyMax i) s
    · exact .inl h
    · exact .inr (.inl ⟨_, h⟩)
    · exact .inr (.inl ⟨e, h⟩)
    · exact .inr (.inr h)
  · cases i with
    | rdb idx =>
      have hidx : 29 < idx.toNat := by simpa [Instr.wellFormed] using hwf
      exact .inr (.inl ⟨_, exec_rdb_of_reserved hidx s⟩)
    | _ => exact absurd rfl hwf

/-- A command answers 0x8000 and the engine is then in `ERROR`, or its rule answers (R72, R190, R191). -/
theorem exec_fault_or_ok (i : Instr) (s : State) :
    (∃ t, exec i s = .next t ∧ t.outbox = s.outbox ++ [faultRsp] ∧ t.inbox = s.inbox ∧ t.cfg = s.cfg ∧
      t.regs.phase = .error) ∨
    (legality i s.regs.phase = .ok ∧ ∃ r d, ruleOf s.cfg.keyMax i s.regs = .ok (r, d) ∧
      exec i s = .next (respond (okRsp d) { s with regs := r })) := by
  obtain ⟨hl, he⟩ | ⟨e, he⟩ | hok := exec_cases i s
  · exact .inl ⟨_, he, rfl, rfl, rfl, ((legality_refused_iff i _).mp hl).1⟩
  · exact .inl ⟨_, he, raiseFault_outbox e s, raiseFault_inbox e s, raiseFault_cfg e s, raiseFault_phase e s⟩
  · exact .inr hok

/-- Whatever the command and the state, `exec` answers a next state (R70). -/
theorem exec_next (i : Instr) (s : State) : ∃ t, exec i s = .next t := by
  obtain ⟨t, ht, -⟩ | ⟨-, r, d, -, ht⟩ := exec_fault_or_ok i s
  · exact ⟨t, ht⟩
  · exact ⟨_, ht⟩

/-- Settles O7: each case of a step answers a next state, a decoded command by `exec_next`. -/
theorem stepIsTotal : Obligations.StepIsTotal := by
  unfold Obligations.StepIsTotal
  intro s
  obtain ⟨-, h⟩ | ⟨rest, -, h⟩ | ⟨w, rest, i, -, -, h⟩ | ⟨w, rest, e, -, -, h⟩ := step_cases s
  · exact ⟨_, h⟩
  · exact ⟨_, h⟩
  · rw [h]
    exact exec_next i _
  · exact ⟨_, h⟩

/-- Settles O5: the step's case of a word that decodes. -/
theorem stepRunsTheDecodedCommand : Obligations.StepRunsTheDecodedCommand := by
  unfold Obligations.StepRunsTheDecodedCommand
  intro s w rest i hs hd
  simp only [step, hs, hd]

/-- Settles O8: the two status reads never fault; every other command answers 0x8000 in `ERROR`, or its rule's data
outside it. -/
theorem everyCommandAnswersOnce : Obligations.EveryCommandAnswersOnce := by
  unfold Obligations.EveryCommandAnswersOnce
  intro i s
  by_cases hread : i = .rdst ∨ i = .rderr
  · have hok : ∃ d, exec i s = .next (respond (okRsp d) s) := by
      obtain rfl | rfl := hread
      · exact ⟨_, exec_rdst s⟩
      · exact ⟨_, exec_rderr s⟩
    obtain ⟨d, he⟩ := hok
    exact ⟨_, okRsp d, he, rfl, rfl, rfl, .inr (okRsp_toNat_le d),
      fun ⟨hst, her, _⟩ => absurd hread (not_or.mpr ⟨hst, her⟩), fun h => absurd hread (not_or.mpr h), fun _ => okRsp_ne_faultRsp d⟩
  obtain ⟨hst, her⟩ := not_or.mp hread
  obtain ⟨t, he, hout, hin, hcfg, hp⟩ | ⟨hl, r, d, hr, he⟩ := exec_fault_or_ok i s
  · exact ⟨t, faultRsp, he, hout, hin, hcfg, .inl rfl, fun _ => .inr rfl, fun _ => iff_of_true rfl hp,
      fun h => absurd h hread⟩
  · refine ⟨_, okRsp d, he, rfl, rfl, rfl, .inr (okRsp_toNat_le d), fun ⟨_, _, hrdb⟩ => .inl ?_, fun _ =>
      iff_of_false (okRsp_ne_faultRsp d) (ruleOf_phase_ne_error hst her hl hr), fun h => absurd h hread⟩
    rw [ruleOf_data_eq_zero hst her hrdb hr]
    rfl

end Sys2Proof.Machine
end

section
/-! SUPPORT. SHA-1 (R99, R102): the words of the message schedule and the padded end of a message. -/

namespace Sys2Proof.Machine

/-! ### The message schedule (R99) -/

theorem rotl32_eq_rotateLeft (x : Word) {n : Nat} (hn : n < 32) : rotl32 x n = x.rotateLeft n :=
  (BitVec.rotateLeft_eq_rotateLeftAux_of_lt hn).symm

@[simp] theorem extendSchedule_length (n : Nat) (w : List Word) : (extendSchedule n w).length = n + w.length := by
  induction n generalizing w with
  | zero => simp [extendSchedule]
  | succ n ih => rw [extendSchedule, ih, List.length_cons]; omega

/-- The n words that an extension adds stand before the words it began with. -/
theorem extendSchedule_drop (n : Nat) (w : List Word) : (extendSchedule n w).drop n = w := by
  induction n generalizing w with
  | zero => rfl
  | succ n ih => rw [extendSchedule, ← List.drop_drop, ih, List.drop_one, List.tail_cons]

theorem extendSchedule_getD_add (n k : Nat) (w : List Word) : (extendSchedule n w).getD (n + k) 0 = w.getD k 0 := by
  rw [List.getD_eq_getElem?_getD, ← List.getElem?_drop, extendSchedule_drop, List.getD_eq_getElem?_getD]

/-- The recurrence of R99 in the newest-first order of `extendSchedule`: "d words before" is d places further on. -/
theorem extendSchedule_getD_of_lt {n i : Nat} (hi : i < n) (w : List Word) :
    (extendSchedule n w).getD i 0 =
      rotl32 ((extendSchedule n w).getD (i + 3) 0 ^^^ (extendSchedule n w).getD (i + 8) 0 ^^^
        (extendSchedule n w).getD (i + 14) 0 ^^^ (extendSchedule n w).getD (i + 16) 0) 1 := by
  induction n generalizing w with
  | zero => omega
  | succ n ih =>
    rw [extendSchedule]
    obtain hlt | rfl := Nat.lt_succ_iff_lt_or_eq.mp hi
    · exact ih hlt _
    · have hhead := extendSchedule_getD_add i 0
      simp only [Nat.add_zero] at hhead
      simp only [extendSchedule_getD_add, hhead, List.getD_cons_zero, List.getD_cons_succ]

theorem schedule_length {m : List Word} (hm : m.length = 16) : (schedule m).length = 80 := by
  simp [schedule, hm]

theorem schedule_take {m : List Word} (hm : m.length = 16) : (schedule m).take 16 = m := by
  have hdrop : (extendSchedule 64 m.reverse).length - 16 = 64 := by simp [hm]
  rw [schedule, List.take_reverse, hdrop, extendSchedule_drop, List.reverse_reverse]

/-- Word t of the schedule in the newest-first list. -/
theorem schedule_getD {m : List Word} (hm : m.length = 16) {t : Nat} (ht : t < 80) :
    (schedule m).getD t 0 = (extendSchedule 64 m.reverse).getD (79 - t) 0 := by
  have hlen : (extendSchedule 64 m.reverse).length = 80 := by simp [hm]
  rw [schedule, List.getD_eq_getElem?_getD, List.getElem?_reverse (hlen ▸ ht), hlen, List.getD_eq_getElem?_getD]

/-- Settles O36: an extension's length, its kept words, and its recurrence read from the oldest word on. -/
theorem messageScheduleRecurrence : Obligations.MessageScheduleRecurrence := by
  unfold Obligations.MessageScheduleRecurrence
  intro m hm
  refine ⟨schedule_length hm, schedule_take hm, fun t hlo hhi => ?_⟩
  have hback {d : Nat} (hd : d ≤ 16) :
      (schedule m).getD (t - d) 0 = (extendSchedule 64 m.reverse).getD (79 - t + d) 0 := by
    rw [schedule_getD hm (by omega), show 79 - (t - d) = 79 - t + d by omega]
  rw [schedule_getD hm hhi, extendSchedule_getD_of_lt (by omega), rotl32_eq_rotateLeft _ (by decide),
    hback (by decide), hback (by decide), hback (by decide), hback (by decide)]

/-! ### The final blocks (R102) -/

/-- The eight bytes of `be64` are the digits of its value to the base 256, most significant first (R11). -/
theorem be64_value (v : BitVec 64) : (be64 v).foldl (fun n b => n * 256 + b.toNat) 0 = v.toNat := by
  have hv := v.isLt
  simp only [be64, List.foldl_cons, List.foldl_nil, BitVec.extractLsb'_toNat, Nat.shiftRight_eq_div_pow]
  omega

theorem finalBlocks_of_le {tail : List Byte} (h : tail.length ≤ 55) (len : Nat) :
    finalBlocks tail len =
      [tail ++ [0x80] ++ rep 0x00 (55 - tail.length) ++ be64 (BitVec.ofNat 64 (8 * len))] :=
  if_pos h

theorem finalBlocks_of_gt {tail : List Byte} (h : ¬ tail.length ≤ 55) (len : Nat) :
    finalBlocks tail len =
      [tail ++ [0x80] ++ rep 0x00 (63 - tail.length), rep 0x00 56 ++ be64 (BitVec.ofNat 64 (8 * len))] :=
  if_neg h

/-- There is one final block exactly when the length in bits still fits behind a tail and its 0x80 (R102). -/
theorem finalBlocks_length (tail : List Byte) (len : Nat) :
    (finalBlocks tail len).length = if tail.length ≤ 55 then 1 else 2 := by
  by_cases h : tail.length ≤ 55
  · rw [finalBlocks_of_le h, if_pos h]; rfl
  · rw [finalBlocks_of_gt h, if_neg h]; rfl

theorem length_of_mem_finalBlocks {tail b : List Byte} {len : Nat} (htail : tail.length ≤ 63)
    (hb : b ∈ finalBlocks tail len) : b.length = 64 := by
  by_cases h : tail.length ≤ 55
  · rw [finalBlocks_of_le h, List.mem_singleton] at hb
    subst hb
    simp; omega
  · rw [finalBlocks_of_gt h, List.mem_pair] at hb
    obtain rfl | rfl := hb
    · simp; omega
    · simp

/-- The final blocks joined: between 0x80 and the length in bits stand zeros only (R102). -/
theorem finalBlocks_flatten (tail : List Byte) (len : Nat) :
    ∃ zeros, (finalBlocks tail len).flatten =
      tail ++ [0x80] ++ List.replicate zeros 0x00 ++ be64 (BitVec.ofNat 64 (8 * len)) := by
  by_cases h : tail.length ≤ 55
  · refine ⟨55 - tail.length, ?_⟩
    simp [finalBlocks_of_le h, rep]
  · refine ⟨63 - tail.length + 56, ?_⟩
    simp [finalBlocks_of_gt h, rep, List.replicate_add]

/-- Settles O37: the number of blocks, their length, and what they join to; below 2^61 bytes the length in bits does not
wrap in its 64 bits. -/
theorem finalBlocksPadTheMessage : Obligations.FinalBlocksPadTheMessage := by
  unfold Obligations.FinalBlocksPadTheMessage
  intro tail len htail hlen
  obtain ⟨zeros, hflat⟩ := finalBlocks_flatten tail len
  refine ⟨finalBlocks_length tail len, fun b hb => length_of_mem_finalBlocks htail hb,
    zeros, be64 (BitVec.ofNat 64 (8 * len)), hflat, be64_length _, ?_⟩
  rw [be64_value, BitVec.toNat_ofNat, Nat.mod_eq_of_lt (by omega)]

end Sys2Proof.Machine
end

section
/-! SUPPORT. Command sequences on the registers alone: what a sequence makes of them and answers, from every state that
holds them, and how such runs compose. -/

namespace Sys2Proof.Machine

open Sys2Proof

/-- From every state with these registers and this `KEYMAX` the commands end in the registers `q` with the responses
`rsps`. -/
def Runs (keyMax : Nat) (is : List Instr) (r q : Regs) (rsps : List RspWord) : Prop :=
  ∀ s : State, s.cfg.keyMax = keyMax → s.regs = r → EndsIn is s q rsps

/-- What runs so on the registers of a state runs so from that state. -/
theorem Runs.endsIn {is : List Instr} {s : State} {q : Regs} {rsps : List RspWord}
    (h : Runs s.cfg.keyMax is s.regs q rsps) : EndsIn is s q rsps :=
  h s rfl rfl

theorem Runs.nil (keyMax : Nat) (r : Regs) : Runs keyMax [] r r [] := by
  rintro s - rfl
  simp [EndsIn, runCmds, runWords, wordsOf, runSteps, issue]

/-- A sequence, then another one from where it ended. -/
theorem Runs.append {keyMax : Nat} {is js : List Instr} {r q p : Regs} {rs qs : List RspWord}
    (h : Runs keyMax is r q rs) (h' : Runs keyMax js q p qs) : Runs keyMax (is ++ js) r p (rs ++ qs) := by
  intro s hk hr
  have h1 : runSteps (wordsOf is).length (issue (wordsOf is) (issue (wordsOf js) s)) =
      .next (issue (wordsOf js) { s with regs := q, outbox := s.outbox ++ rs }) :=
    h (issue (wordsOf js) s) hk hr
  have h2 : runSteps (wordsOf js).length (issue (wordsOf js) { s with regs := q, outbox := s.outbox ++ rs }) = _ :=
    h' { s with regs := q, outbox := s.outbox ++ rs } hk rfl
  have hissue : issue (wordsOf (is ++ js)) s = issue (wordsOf is) (issue (wordsOf js) s) := by
    simp [issue, wordsOf]
  rw [EndsIn, runCmds, runWords, hissue, show (wordsOf (is ++ js)).length = (wordsOf is).length + (wordsOf js).length by
    simp [wordsOf], runSteps_add h1, h2, List.append_assoc]

/-- A command that is the next one issued takes one step (R70). -/
theorem Runs.of_exec {keyMax : Nat} {i : Instr} {r q : Regs} {rsp : RspWord} (hwf : i.wellFormed = true)
    (h : ∀ s : State, s.cfg.keyMax = keyMax → s.regs = r → exec i s = .next (respond rsp { s with regs := q })) :
    Runs keyMax [i] r q [rsp] := by
  intro s hk hr
  have hstep : step (issue (wordsOf [i]) s) = exec i s :=
    stepRunsTheDecodedCommand _ (encode i) s.inbox i rfl (decode_encode hwf)
  rw [EndsIn, runCmds, runWords]
  exact runSteps_succ (hstep.trans (h s hk hr))

/-- A command whose rule answers (R70 (5), (6)). -/
theorem Runs.of_ok {keyMax : Nat} {i : Instr} {r q : Regs} {d : Byte} (hwf : i.wellFormed = true)
    (hl : legality i r.phase = .ok) (h : ruleOf keyMax i r = .ok (q, d)) : Runs keyMax [i] r q [okRsp d] := by
  refine Runs.of_exec hwf fun s hk hr => ?_
  subst hk hr
  rw [exec_eq_runCommand hwf, runCommand_ok hl h]

/-- A command whose rule raises (R70 (5), R190). -/
theorem Runs.of_raise {keyMax : Nat} {i : Instr} {r : Regs} {e : Exc} (hwf : i.wellFormed = true)
    (hl : legality i r.phase = .ok) (hp : r.phase ≠ .error) (h : ruleOf keyMax i r = .error e) :
    Runs keyMax [i] r (faultRegs e) [faultRsp] := by
  refine Runs.of_exec hwf fun s hk hr => ?_
  subst hk hr
  rw [exec_eq_runCommand hwf, runCommand_raise hl h, raiseFault_of_ne e hp]

/-- In `ERROR` commands other than the three of R191 are refused, every one of them. -/
theorem Runs.of_error {keyMax : Nat} {r : Regs} (hp : r.phase = .error) {is : List Instr}
    (his : ∀ i ∈ is, i.wellFormed = true ∧ i ≠ .clr ∧ i ≠ .rdst ∧ i ≠ .rderr) :
    Runs keyMax is r r (List.replicate is.length faultRsp) := by
  induction is with
  | nil => exact Runs.nil keyMax r
  | cons i is ih =>
    obtain ⟨hwf, hi⟩ := his i List.mem_cons_self
    have hone : Runs keyMax [i] r r [faultRsp] := Runs.of_exec hwf fun s _ hr => by
      subst hr
      rw [exec_eq_runCommand hwf, runCommand_refused ((legality_refused_iff i _).mpr ⟨hp, hi⟩)]
      rfl
    exact hone.append (ih fun j hj => his j (List.mem_cons_of_mem i hj))

end Sys2Proof.Machine
end

section
/-! SUPPORT. The key path (R117, R116): the registers that hold the key bytes received so far, and what they close to. -/

namespace Sys2Proof.Machine

open Sys2Proof

/-! ### Contents of a register -/

theorem takeD_getElem {n i : Nat} {s : List Byte} (h : i < (s.takeD n 0).length) : (s.takeD n 0)[i] = s.getD i 0 := by
  induction n generalizing s i with
  | zero => simp at h
  | succ n ih =>
    cases i with
    | zero => cases s <;> rfl
    | succ i =>
      have htail := ih (s := s.tail) (by simpa using h)
      cases s <;> exact htail

/-- Byte i of a register filled from a byte string (R11). -/
@[simp] theorem toReg_getElem {n i : Nat} {s : List Byte} (h : i < n) : (toReg n s)[i] = s.getD i 0 := by
  rw [← Vector.getElem_toList (by simpa using h)]
  exact takeD_getElem _

/-- Storing a byte at the end of a string that does not fill the register. -/
theorem toReg_set {n : Nat} {s : List Byte} {b : Byte} (h : s.length < n) :
    (toReg n s).set s.length b h = toReg n (s ++ [b]) := by
  refine Vector.ext fun i hi => ?_
  rw [Vector.getElem_set, toReg_getElem, toReg_getElem]
  obtain hlt | rfl | hgt := Nat.lt_trichotomy i s.length
  · rw [if_neg hlt.ne', List.getD_append _ _ _ _ hlt]
  · simp
  · rw [if_neg hgt.ne, List.getD_eq_default _ _ hgt.le, List.getD_eq_default _ _ (by simp; omega)]

/-- The complete blocks of a message do not depend on the bytes after them. -/
theorem compressBlocks_append {n : Nat} {hc : Chain} {m more : List Byte} (h : 64 * n ≤ m.length) :
    compressBlocks n hc (m ++ more) = compressBlocks n hc m := by
  induction n generalizing hc m with
  | zero => rfl
  | succ n ih =>
    rw [compressBlocks_succ, compressBlocks_succ, List.take_append_of_le_length (by omega),
      List.drop_append_of_le_length (by omega), ih (by simp; omega)]

/-! ### The key bytes received so far -/

/-- The registers hold the key bytes `k` as `KeyPush` leaves them (R117). -/
structure Regs.HoldsKey (k : List Byte) (r : Regs) : Prop where
  klen : r.klen.toNat = k.length
  k0 : r.k0 = toReg 64 (k.take 64)
  short : k.length ≤ 64 → r.h = Vector.replicate 5 0 ∧ r.blk = Vector.replicate 64 0
  long : 64 < k.length →
    r.h = compressBlocks (k.length / 64) iv k ∧
      r.blk.toList.take (k.length % 64) = k.drop (64 * (k.length / 64))

/-- Only the four registers of the key path count. -/
theorem Regs.HoldsKey.congr {k : List Byte} {r q : Regs} (h : r.HoldsKey k) (hk0 : q.k0 = r.k0) (hblk : q.blk = r.blk)
    (hh : q.h = r.h) (hklen : q.klen = r.klen) : q.HoldsKey k where
  klen := by rw [hklen, h.klen]
  k0 := by rw [hk0, h.k0]
  short := by rw [hh, hblk]; exact h.short
  long := by rw [hh, hblk]; exact h.long

theorem zero_holdsKey : Regs.zero.HoldsKey [] where
  klen := rfl
  k0 := rfl
  short _ := ⟨rfl, rfl⟩
  long h := absurd h (by simp)

/-- `pushLong` compares the register, the claims its number. -/
theorem klen_eq_64_iff {r : Regs} : r.klen = 64 ↔ r.klen.toNat = 64 :=
  ⟨fun h => by rw [h]; rfl, fun h => BitVec.eq_of_toNat_eq h⟩

/-- The chaining value and the block buffer with which the push of a byte past the 64th begins: `K0` is compressed first
when it is the 65th (R117). -/
theorem Regs.HoldsKey.before_pushLong {k : List Byte} {r : Regs} (hr : r.HoldsKey k) (h64 : 64 ≤ k.length) :
    (if r.klen = 64 then compress iv r.k0.toList else r.h) = compressBlocks (k.length / 64) iv k ∧
      r.blk.toList.take (k.length % 64) = k.drop (64 * (k.length / 64)) := by
  have hiff : r.klen = 64 ↔ k.length = 64 := by rw [klen_eq_64_iff, hr.klen]
  obtain heq | hgt := h64.eq_or_lt
  · have htake : k.take 64 = k := List.take_of_length_le heq.ge
    rw [if_pos (hiff.mpr heq.symm), hr.k0, htake, toReg_toList_of_length heq.symm, ← heq]
    simp [compressBlocks_succ, htake, ← heq]
  · rw [if_neg (hiff.not.mpr (by omega))]
    exact hr.long hgt

theorem Regs.HoldsKey.pushLong {k : List Byte} {r : Regs} (b : Byte) (hr : r.HoldsKey k) (h64 : 64 ≤ k.length)
    (hlt : k.length + 1 < 2 ^ 64) : (pushLong b r).HoldsKey (k ++ [b]) := by
  obtain ⟨hh, hblk⟩ := hr.before_pushLong h64
  have hj : k.length % 64 < 64 := Nat.mod_lt _ (by decide)
  -- the buffer once the byte is stored
  have hset : (r.blk.set (k.length % 64) b hj).toList.take (k.length % 64 + 1) =
      (k ++ [b]).drop (64 * (k.length / 64)) := by
    rw [List.drop_append_of_le_length (by omega), ← hblk, Vector.toList_set,
      ← List.take_append_getElem (by simpa using hj)]
    simp [List.take_set, List.set_eq_of_length_le]
  refine ⟨?_, ?_, ?_, fun _ => ?_⟩
  · rw [pushLong_klen, BitVec.toNat_add, hr.klen]
    simp; omega
  · rw [pushLong_k0, hr.k0, List.take_append_of_le_length h64]
  · simp; omega
  · simp only [Machine.pushLong, hr.klen, hh, List.length_append, List.length_singleton]
    by_cases hfull : k.length % 64 = 63
    · have hdiv : (k.length + 1) / 64 = k.length / 64 + 1 := by omega
      have hmod : (k.length + 1) % 64 = 0 := by omega
      have hall : (r.blk.set (k.length % 64) b hj).toList = (k ++ [b]).drop (64 * (k.length / 64)) := by
        rw [← hset, List.take_of_length_le (by rw [Vector.length_toList]; omega)]
      have hrest : (k ++ [b]).drop (64 * (k.length / 64 + 1)) = [] :=
        List.drop_eq_nil_of_le (by rw [List.length_append, List.length_singleton]; omega)
      have hblock : ((k ++ [b]).drop (64 * (k.length / 64))).take 64 = (k ++ [b]).drop (64 * (k.length / 64)) :=
        List.take_of_length_le (by rw [List.length_drop, List.length_append, List.length_singleton]; omega)
      rw [if_pos hfull, hdiv, hmod, hrest, compressBlocks_add, compressBlocks_append (by omega), compressBlocks_succ,
        hblock, hall]
      exact ⟨rfl, List.take_zero⟩
    · have hdiv : (k.length + 1) / 64 = k.length / 64 := by omega
      have hmod : (k.length + 1) % 64 = k.length % 64 + 1 := by omega
      rw [if_neg hfull, hdiv, hmod, compressBlocks_append (by omega)]
      exact ⟨rfl, hset⟩

/-- A push on a key shorter than `KEYMAX` succeeds and appends its byte (R117). -/
theorem Regs.HoldsKey.push {keyMax : Nat} {k : List Byte} {r : Regs} (b : Byte) (hk : keyMax < 2 ^ 64)
    (hr : r.HoldsKey k) (hlt : k.length < keyMax) :
    ∃ q, keyPush keyMax b r = .ok q ∧ q.HoldsKey (k ++ [b]) := by
  have hklen := hr.klen
  obtain ⟨hfull, -⟩ | ⟨-, hshort, he⟩ | ⟨-, hlong, he⟩ := keyPush_cases keyMax b r
  · omega
  · refine ⟨_, he, ?_, ?_, fun _ => hr.short (by omega), fun h => ?_⟩
    · rw [BitVec.toNat_add, hklen]
      simp; omega
    · simp only [hr.k0, hklen, List.take_of_length_le (show k.length ≤ 64 by omega)]
      rw [toReg_set, List.take_of_length_le (by simp; omega)]
    · simp at h; omega
  · exact ⟨_, he, hr.pushLong b (by omega) (by omega)⟩

/-- Pushes that end at or below `KEYMAX` succeed and append their bytes. -/
theorem Regs.HoldsKey.pushAll {keyMax : Nat} {k bs : List Byte} {r : Regs} (hk : keyMax < 2 ^ 64) (hr : r.HoldsKey k)
    (hle : k.length + bs.length ≤ keyMax) : ∃ q, keyPushAll keyMax bs r = .ok q ∧ q.HoldsKey (k ++ bs) := by
  induction bs generalizing k r with
  | nil => exact ⟨r, rfl, by simpa using hr⟩
  | cons b bs ih =>
    rw [List.length_cons] at hle
    obtain ⟨q, hpush, hq⟩ := hr.push b hk (by omega)
    obtain ⟨p, hall, hp⟩ := ih hq (by simp; omega)
    exact ⟨p, (keyPushAll_cons hpush).trans hall, by simpa using hp⟩

/-- Settles O38: the pushes succeed by `Regs.HoldsKey.pushAll`, and by `keyPushAll_frame` touch four registers only. -/
theorem keyPushAccumulatesTheKey : Obligations.KeyPushAccumulatesTheKey := by
  unfold Obligations.KeyPushAccumulatesTheKey
  intro keyMax k _ hmax hlen
  obtain ⟨q, hpush, hq⟩ := zero_holdsKey.pushAll (keyMax := keyMax) (bs := k) (by omega) (by simpa using hlen)
  exact ⟨q, hpush, hq.klen, keyPushAll_frame hpush, hq.k0, hq.short, hq.long⟩

/-! ### Closing the key (R123) -/

/-- The key block that `KEND` leaves is `NormKey` of the key bytes received (R116, R123). -/
theorem Regs.HoldsKey.closedKey_eq {k : List Byte} {r : Regs} (hr : r.HoldsKey k) : closedKey r = normKey k := by
  unfold closedKey normKey
  rw [hr.klen]
  by_cases hlen : k.length ≤ 64
  · rw [if_neg (by omega), if_pos hlen, hr.k0, List.take_of_length_le hlen]
  · obtain ⟨hh, hblk⟩ := hr.long (by omega)
    rw [if_pos (by omega), if_neg hlen, hh, hblk]
    rfl

end Sys2Proof.Machine
end

section
/-! SUPPORT. `KBYTE` and `KEND` (R118, R123): what they do to the registers, what the key commands leave alone, and the
raw path law. -/

namespace Sys2Proof.Machine

open Sys2Proof

/-! ### The answers of a command, as the claims write them -/

theorem exec_eq_afterOk {i : Instr} {s : State} {r : Regs} {d : Byte} (hwf : i.wellFormed = true)
    (hl : legality i s.regs.phase = .ok) (h : ruleOf s.cfg.keyMax i s.regs = .ok (r, d)) :
    exec i s = .next (afterOk r d s) :=
  (exec_eq_runCommand hwf s).trans (runCommand_ok hl h)

theorem exec_eq_afterFault {i : Instr} {s : State} {e : Exc} (hwf : i.wellFormed = true)
    (hl : legality i s.regs.phase = .ok) (hp : s.regs.phase ≠ .error) (h : ruleOf s.cfg.keyMax i s.regs = .error e) :
    exec i s = .next (afterFault e.code s) := by
  rw [exec_eq_runCommand hwf, runCommand_raise hl h, raiseFault_eq_afterFault e hp]

theorem exec_eq_sequenceError {i : Instr} {s : State} (hwf : i.wellFormed = true)
    (hl : legality i s.regs.phase = .seq) (hp : s.regs.phase ≠ .error) : exec i s = .next (afterFault 0x11 s) := by
  rw [exec_eq_runCommand hwf, runCommand_seq hl, raiseFault_eq_afterFault _ hp]
  rfl

theorem exec_eq_afterRefusal {i : Instr} {s : State} (hwf : i.wellFormed = true)
    (hl : legality i s.regs.phase = .refused) : exec i s = .next (afterRefusal s) :=
  (exec_eq_runCommand hwf s).trans (runCommand_refused hl)

/-- The word of a command, as a number (R73). -/
theorem encode_toNat (i : Instr) : (encode i).toNat = (opcode i).toNat * 256 + (lowByte i).toNat :=
  append_toNat _ _

/-! ### `KBYTE` -/

theorem kbyteRule_of_full {keyMax : Nat} {b : Byte} {r : Regs} (h : r.klen.toNat = keyMax) :
    kbyteRule keyMax b r = .error .keyOverflow := by
  simp [kbyteRule, keyPush, h]

theorem kbyteRule_of_push {keyMax : Nat} {b : Byte} {r q : Regs} (h : keyPush keyMax b r = .ok q) :
    kbyteRule keyMax b r = .ok ({ q with phase := .keyRaw }, 0) := by
  simp [kbyteRule, h]

theorem keyPush_of_lt {keyMax : Nat} {b : Byte} {r : Regs} (hne : r.klen.toNat ≠ keyMax) (h : r.klen.toNat < 64) :
    keyPush keyMax b r = .ok { r with k0 := r.k0.set r.klen.toNat b h, klen := r.klen + 1 } := by
  simp [keyPush, hne, h]

theorem keyPush_of_ge {keyMax : Nat} {b : Byte} {r : Regs} (hne : r.klen.toNat ≠ keyMax) (h : 64 ≤ r.klen.toNat) :
    keyPush keyMax b r = .ok (pushLong b r) := by
  simp [keyPush, hne, h]

/-- Settles O12: the push of a byte, case by case, in the phases where the table lets it run. -/
theorem kbytePushesOneKeyByte : Obligations.KbytePushesOneKeyByte := by
  unfold Obligations.KbytePushesOneKeyByte
  intro s b
  have hwf : (Instr.kbyte b).wellFormed = true := rfl
  refine ⟨by simp [encode_toNat, opcode, lowByte], fun hp hne => ⟨fun h => ?_, fun h hmod => ?_⟩, fun hp hfull => ?_,
    fun hp => ?_, fun hp => ?_⟩
  · exact exec_eq_afterOk hwf (legality_kbyte_ok.mpr hp) (kbyteRule_of_push (keyPush_of_lt hne h))
  · rw [exec_eq_afterOk hwf (legality_kbyte_ok.mpr hp) (kbyteRule_of_push (keyPush_of_ge hne h))]
    simp only [pushLong, klen_eq_64_iff]
  · exact exec_eq_afterFault hwf (legality_kbyte_ok.mpr hp) (by obtain hp | hp := hp <;> simp [hp])
      (kbyteRule_of_full hfull)
  · obtain hp | hp | hp := hp <;> exact exec_eq_sequenceError hwf (by rw [hp]; rfl) (by simp [hp])
  · exact exec_eq_afterRefusal hwf (by rw [hp]; rfl)

/-! ### `KEND` -/

/-- The registers with the key path closed over the key block `k0`: what `KEND` leaves at the start of a group (R123). -/
def Regs.closeWith (k0 : Vector Byte 64) (r : Regs) : Regs :=
  { r with
    k0 := k0, blk := Vector.replicate 64 0, h := Vector.replicate 5 0, klen := 0
    bacc := 0, bn := 0, bpad := 0, bend := false, phase := .keyed }

theorem kendRule_of_bn_zero {r : Regs} (h : r.bn = 0) : kendRule r = .ok (r.closeWith (closedKey r), 0) := by
  simp [kendRule, Regs.closeWith, h]

theorem kendRule_of_bn_ne_zero {r : Regs} (h : r.bn ≠ 0) : kendRule r = .error .invalidKey :=
  if_pos h

theorem closedKey_of_le {r : Regs} (h : r.klen.toNat ≤ 64) : closedKey r = r.k0 :=
  if_neg (by omega)

/-- The key block of a long key: 20 bytes of hash and 44 zeros (R123). -/
theorem closedKey_toList_of_gt {r : Regs} (h : 64 < r.klen.toNat) :
    (closedKey r).toList =
      (ser (finishHash r.h (r.blk.toList.take (r.klen.toNat % 64)) r.klen.toNat)).toList ++ rep 0x00 44 := by
  rw [closedKey, if_pos h]
  exact toReg_toList_of_length (by simp)

/-- Settles O17: `kendRule` at the start of a group and inside one, and the key block for each length. -/
theorem kendClosesTheKey : Obligations.KendClosesTheKey := by
  unfold Obligations.KendClosesTheKey
  have hwf : Instr.kend.wellFormed = true := rfl
  refine ⟨by decide, fun s => ⟨fun hp hbn => ?_, fun hp hbn => ?_, fun hp => ?_, fun hp => ?_⟩⟩
  · refine ⟨closedKey s.regs, ?_, closedKey_of_le, closedKey_toList_of_gt⟩
    rw [exec_eq_afterOk hwf (legality_kend_ok.mpr hp) (kendRule_of_bn_zero hbn), Regs.closeWith, ← hbn]
  · exact exec_eq_afterFault hwf (legality_kend_ok.mpr hp) (by obtain hp | hp | hp := hp <;> simp [hp])
      (kendRule_of_bn_ne_zero hbn)
  · obtain hp | hp := hp <;> exact exec_eq_sequenceError hwf (by rw [hp]; rfl) (by simp [hp])
  · exact exec_eq_afterRefusal hwf (by rw [hp]; rfl)

/-! ### What the key commands leave alone: all that closing the key path leaves visible -/

theorem keyPush_closeWith {keyMax : Nat} {b : Byte} {r q : Regs} (h : keyPush keyMax b r = .ok q) (k0 : Vector Byte 64) :
    q.closeWith k0 = r.closeWith k0 :=
  (congrArg (Regs.closeWith k0) (keyPush_frame h) :)

theorem keyPushAll_closeWith {keyMax : Nat} {bs : List Byte} {r q : Regs} (h : keyPushAll keyMax bs r = .ok q)
    (k0 : Vector Byte 64) : q.closeWith k0 = r.closeWith k0 :=
  (congrArg (Regs.closeWith k0) (keyPushAll_frame h) :)

theorem kcharRule_closeWith {keyMax : Nat} {c d : Byte} {r q : Regs} (h : kcharRule keyMax c r = .ok (q, d))
    (k0 : Vector Byte 64) : q.closeWith k0 = r.closeWith k0 := by
  obtain ⟨-, v, pads, -, ha⟩ := kcharRule_eq_ok h
  by_cases hbn : r.bn.toNat < 7
  · rw [acceptChar_of_lt hbn] at ha
    cases ha
    rfl
  · rw [acceptChar_of_ge hbn] at ha
    obtain ⟨n, p, -, hpush, rfl⟩ := emitGroup_eq_ok ha
    exact keyPushAll_closeWith hpush k0

/-- Settles O28: each of the three commands keeps what closing the key path keeps, and that is `CTR`, `ERRC` and the
results. -/
theorem keyCommandsFrame : Obligations.KeyCommandsFrame := by
  unfold Obligations.KeyCommandsFrame
  intro i s t hi he ht
  obtain ⟨-, d, hr⟩ := exec_of_phase_ne_error he ht
  have hclose : t.regs.closeWith s.regs.k0 = s.regs.closeWith s.regs.k0 := by
    obtain ⟨b, rfl⟩ | ⟨c, rfl⟩ | rfl := hi
    · obtain ⟨q, hpush, hq⟩ := kbyteRule_eq_ok hr
      rw [hq]
      exact keyPush_closeWith hpush _
    · exact kcharRule_closeWith hr _
    · obtain ⟨-, hq⟩ := kendRule_eq_ok hr
      rw [hq]
      rfl
  refine ⟨(congrArg Regs.ctr hclose :), (congrArg Regs.errc hclose :), (congrArg Regs.tv hclose :),
    (congrArg Regs.cv hclose :), (congrArg Regs.dg hclose :), (congrArg Regs.tr hclose :),
    (congrArg Regs.code hclose :), fun a => (congrArg (windowByte · a) hclose :), ?_, ?_⟩
  · rintro ⟨b, rfl⟩
    obtain ⟨q, hpush, hq⟩ := kbyteRule_eq_ok hr
    have hframe := keyPush_frame hpush
    rw [hq]
    exact ⟨(congrArg Regs.bacc hframe :), (congrArg Regs.bn hframe :), (congrArg Regs.bpad hframe :),
      (congrArg Regs.bend hframe :)⟩
  · rintro rfl
    obtain ⟨-, hq⟩ := kendRule_eq_ok hr
    rw [hq]

/-! ### The raw path (R124) -/

/-- The registers hold the key bytes `k`, and beside the key path and the phase only the counter `ctr`. -/
structure Regs.Loads (ctr : BitVec 64) (k : List Byte) (r : Regs) : Prop where
  holds : r.HoldsKey k
  closes : ∀ k0, r.closeWith k0 = { Regs.zero with phase := .keyed, k0 := k0, ctr := ctr }

/-- In `IDLE` no key byte is held (R39, item 3). -/
theorem Regs.Inv.idle_loads {keyMax : Nat} {r : Regs} (hi : r.Inv keyMax) (hp : r.phase = .idle) : r.Loads r.ctr [] := by
  obtain ⟨c, rfl⟩ : ∃ c, r = { Regs.zero with ctr := c } := ⟨_, hi.idle_zero hp⟩
  exact ⟨zero_holdsKey.congr rfl rfl rfl rfl, fun _ => rfl⟩

/-- `KBYTE` of each byte of a string that fits below `KEYMAX`. -/
theorem runs_kbytes {keyMax : Nat} (hk : keyMax < 2 ^ 64) {ctr : BitVec 64} (bs : List Byte) {k : List Byte} {r : Regs}
    (hr : r.Loads ctr k) (hbn : r.bn = 0) (hp : r.phase = .idle ∨ r.phase = .keyRaw)
    (hle : k.length + bs.length ≤ keyMax) :
    ∃ q, Runs keyMax (bs.map .kbyte) r q (List.replicate bs.length 0x0000) ∧ q.Loads ctr (k ++ bs) ∧ q.bn = 0 ∧
      q.phase.loading := by
  induction bs generalizing k r with
  | nil => exact ⟨r, Runs.nil keyMax r, by simpa using hr, hbn, hp.imp_right .inl⟩
  | cons b bs ih =>
    rw [List.length_cons] at hle
    obtain ⟨p, hpush, hheld⟩ := hr.holds.push b hk (by omega)
    have hone : Runs keyMax [.kbyte b] r { p with phase := .keyRaw } [0x0000] :=
      Runs.of_ok rfl (legality_kbyte_ok.mpr hp) (kbyteRule_of_push hpush)
    have hload : ({ p with phase := .keyRaw } : Regs).Loads ctr (k ++ [b]) :=
      ⟨hheld.congr rfl rfl rfl rfl, fun k0 => (keyPush_closeWith hpush k0).trans (hr.closes k0)⟩
    have hbn' : p.bn = 0 := (congrArg Regs.bn (keyPush_frame hpush) :).trans hbn
    obtain ⟨q, hruns, hq, hend⟩ := ih hload hbn' (.inr rfl) (by simp; omega)
    exact ⟨q, hone.append hruns, by simpa using hq, hend⟩

/-- `KEND` at the start of a group closes the key that is held (R123). -/
theorem runs_kend {keyMax : Nat} {ctr : BitVec 64} {k : List Byte} {r : Regs} (hr : r.Loads ctr k) (hbn : r.bn = 0)
    (hp : r.phase.loading) :
    Runs keyMax [.kend] r { Regs.zero with phase := .keyed, k0 := normKey k, ctr := ctr } [0x0000] := by
  have hrule := kendRule_of_bn_zero hbn
  rw [hr.holds.closedKey_eq, hr.closes] at hrule
  exact Runs.of_ok rfl (legality_kend_ok.mpr hp) hrule

/-- Settles O45: the key bytes by `runs_kbytes`, then `KEND` by `runs_kend`. -/
theorem rawPathNormalisesTheKey : Obligations.RawPathNormalisesTheKey := by
  unfold Obligations.RawPathNormalisesTheKey
  intro s k hs hp hlen
  obtain ⟨⟨-, hmax⟩, hi⟩ := hs
  obtain ⟨-, hbn, -⟩ := hi.decoder_zero (.inl hp)
  obtain ⟨q, hruns, hq, hqbn, hqp⟩ := runs_kbytes (keyMax := s.cfg.keyMax) (by omega) k (hi.idle_loads hp) hbn
    (.inl hp) (by simpa using hlen)
  rw [List.replicate_succ']
  exact (hruns.append (runs_kend hq hqbn hqp)).endsIn

end Sys2Proof.Machine
end

section
/-! SUPPORT. `KCHAR` (R122): a character that enters a group, and the group that its eighth character closes. -/

namespace Sys2Proof.Machine

open Sys2Proof

/-! ### The checks of `KCHAR` -/

theorem b32Val_padChar : b32Val padChar = none := by decide

theorem kcharRule_of_pad {keyMax : Nat} {r : Regs} (hbend : r.bend = false) :
    kcharRule keyMax padChar r = acceptChar keyMax 0 (r.bpad.toNat + 1) r := by
  simp [kcharRule, hbend]

theorem kcharRule_of_val {keyMax : Nat} {c : Byte} {v : BitVec 5} {r : Regs} (hbend : r.bend = false)
    (hv : b32Val c = some v) (hpad : r.bpad = 0) : kcharRule keyMax c r = acceptChar keyMax v 0 r := by
  have hc : c ≠ padChar := by
    rintro rfl
    simp [b32Val_padChar] at hv
  simp [kcharRule, hbend, hc, hv, hpad]

/-- Settles O13: before the eighth character `KCHAR` only enters the group. -/
theorem kcharCollectsTheGroup : Obligations.KcharCollectsTheGroup := by
  unfold Obligations.KcharCollectsTheGroup
  intro s c
  have hwf : (Instr.kchar c).wellFormed = true := rfl
  refine ⟨by simp [encode_toNat, opcode, lowByte], fun hp hbend hbn => ⟨fun v hv hpad => ?_, fun hc => ?_⟩⟩
  · rw [exec_eq_afterOk hwf (legality_kchar_ok.mpr hp)
      ((kcharRule_of_val hbend hv hpad).trans (acceptChar_of_lt hbn)), Regs.enterChar]
    simp [hpad]
  · subst hc
    have hbpad : BitVec.ofNat 3 (s.regs.bpad.toNat + 1) = s.regs.bpad + 1 := by simp [BitVec.ofNat_add]
    rw [exec_eq_afterOk hwf (legality_kchar_ok.mpr hp) ((kcharRule_of_pad hbend).trans (acceptChar_of_lt hbn)),
      Regs.enterChar, hbpad]
    simp

/-! ### The bytes of a group -/

/-- Byte i of a 40-bit group, most significant first (R120). -/
theorem groupBytes_getElem_toNat (acc : BitVec 40) {i : Nat} (hi : i < (groupBytes acc).length) :
    (groupBytes acc)[i].toNat = acc.toNat / 2 ^ (32 - 8 * i) % 256 := by
  have hlen : i < 5 := hi
  simp only [groupBytes]
  interval_cases i <;> simp [BitVec.extractLsb'_toNat, Nat.shiftRight_eq_div_pow]

/-- The five shapes of a complete group (R120). -/
theorem nBytes_of_mem {pads n : Nat} (h : (pads, n) ∈ [(0, 5), (1, 4), (3, 3), (4, 2), (6, 1)]) :
    nBytes pads = some n := by
  simp only [List.mem_cons, Prod.mk.injEq, List.not_mem_nil, or_false] at h
  obtain ⟨rfl, rfl⟩ | ⟨rfl, rfl⟩ | ⟨rfl, rfl⟩ | ⟨rfl, rfl⟩ | ⟨rfl, rfl⟩ := h <;> rfl

theorem groupBytes_take_length {pads n : Nat} (h : nBytes pads = some n) (acc : BitVec 40) :
    ((groupBytes acc).take n).length = n :=
  List.length_take_of_le (nBytes_range h).2

/-- The registers after a group that its eighth character closed, `q` being those after its bytes were pushed (R122). -/
def Regs.leaveGroup (pads : Nat) (q : Regs) : Regs :=
  { q with bend := decide (0 < pads), bacc := 0, bn := 0, bpad := 0, phase := .keyB32 }

theorem emitGroup_of_push {keyMax pads n : Nat} {acc : BitVec 40} {r q : Regs} (hn : nBytes pads = some n)
    (h : keyPushAll keyMax ((groupBytes acc).take n) r = .ok q) :
    emitGroup keyMax acc pads r = .ok (q.leaveGroup pads, 0) := by
  simp [emitGroup, hn, h, Regs.leaveGroup]

theorem emitGroup_of_none {keyMax pads : Nat} (hn : nBytes pads = none) (acc : BitVec 40) (r : Regs) :
    emitGroup keyMax acc pads r = .error .invalidKey := by
  simp [emitGroup, hn]

/-! ### Pushes into an arbitrary key register -/

/-- Pushes that end at or below `KEYMAX` succeed and are counted, whatever the key registers hold (R117). -/
theorem keyPushAll_of_le {keyMax : Nat} {bs : List Byte} {r : Regs} (hk : keyMax < 2 ^ 64)
    (hle : r.klen.toNat + bs.length ≤ keyMax) :
    ∃ q, keyPushAll keyMax bs r = .ok q ∧ q.klen.toNat = r.klen.toNat + bs.length := by
  induction bs generalizing r with
  | nil => exact ⟨r, rfl, rfl⟩
  | cons b bs ih =>
    rw [List.length_cons] at hle ⊢
    obtain ⟨p, hpush⟩ : ∃ p, keyPush keyMax b r = .ok p := by
      obtain ⟨hfull, -⟩ | ⟨-, _, he⟩ | ⟨-, -, he⟩ := keyPush_cases keyMax b r
      · omega
      · exact ⟨_, he⟩
      · exact ⟨_, he⟩
    obtain ⟨hklen, -⟩ := keyPush_klen_toNat hk (by omega) hpush
    obtain ⟨q, hall, hq⟩ := ih (r := p) (by omega)
    exact ⟨q, (keyPushAll_cons hpush).trans hall, by omega⟩

/-- Pushes that end within the first 64 bytes stand in `K0` from `KLEN` on and change nothing else there (R117). -/
theorem keyPushAll_short {keyMax : Nat} {bs : List Byte} {r q : Regs} (h : keyPushAll keyMax bs r = .ok q)
    (hle : r.klen.toNat + bs.length ≤ 64) :
    q.blk = r.blk ∧ q.h = r.h ∧
      ∀ j (hj : j < 64), q.k0[j] = if r.klen.toNat ≤ j then bs.getD (j - r.klen.toNat) r.k0[j] else r.k0[j] := by
  induction bs generalizing r with
  | nil => cases h; simp
  | cons b bs ih =>
    rw [List.length_cons] at hle
    have hlt : r.klen.toNat < 64 := by omega
    obtain ⟨-, he⟩ | ⟨-, _, hpush⟩ | ⟨-, hlong, -⟩ := keyPush_cases keyMax b r
    · simp [keyPushAll, he] at h
    · rw [keyPushAll_cons hpush] at h
      have hklen : (r.klen + 1).toNat = r.klen.toNat + 1 := by
        rw [BitVec.toNat_add]
        simp; omega
      obtain ⟨hblk, hh, hk0⟩ := ih h (by simp only [hklen]; omega)
      refine ⟨hblk, hh, fun j hj => ?_⟩
      simp only [hk0 j hj, hklen, Vector.getElem_set]
      obtain hj' | rfl | hj' := Nat.lt_trichotomy j r.klen.toNat
      · simp [hj'.not_ge, hj'.ne', show ¬ r.klen.toNat + 1 ≤ j by omega]
      · simp
      · rw [if_pos (Nat.succ_le_of_lt hj'), if_pos hj'.le, if_neg hj'.ne,
          show j - r.klen.toNat = j - (r.klen.toNat + 1) + 1 by omega, List.getD_cons_succ]
    · omega

/-- Settles O14: the eighth character pushes the group's bytes, by `keyPushAll_of_le`; where they stand in `K0` is
`keyPushAll_short`. -/
theorem kcharEmitsTheGroup : Obligations.KcharEmitsTheGroup := by
  unfold Obligations.KcharEmitsTheGroup
  intro s c v pads n hcfg hp hbend hbn hc hmem hle acc
  obtain ⟨-, hmax⟩ := hcfg
  have hn := nBytes_of_mem hmem
  have hlen := groupBytes_take_length hn acc
  obtain ⟨q, hpush, hklen⟩ := keyPushAll_of_le (keyMax := s.cfg.keyMax) (bs := (groupBytes acc).take n) (r := s.regs)
    (by omega) (by omega)
  have haccept : kcharRule s.cfg.keyMax c s.regs = acceptChar s.cfg.keyMax v pads s.regs := by
    obtain ⟨rfl, rfl, rfl⟩ | ⟨hv, hpad, rfl⟩ := hc
    · exact kcharRule_of_pad hbend
    · exact kcharRule_of_val hbend hv hpad
  have hrule : ruleOf s.cfg.keyMax (.kchar c) s.regs = .ok (q.leaveGroup pads, 0) :=
    haccept.trans ((acceptChar_of_ge (by simp [hbn])).trans (emitGroup_of_push hn hpush))
  refine ⟨q, hpush, exec_eq_afterOk rfl (legality_kchar_ok.mpr hp) hrule, keyPushAll_frame hpush, by omega,
    fun h64 => ?_⟩
  obtain ⟨hblk, hh, hk0⟩ := keyPushAll_short hpush (by omega)
  refine ⟨hblk, hh, fun i hi hi64 => ?_, fun j hj hout => ?_⟩
  · have hi' : i < ((groupBytes acc).take n).length := by omega
    rw [hk0 _ hi64, if_pos (Nat.le_add_right _ _), Nat.add_sub_cancel_left, List.getD_eq_getElem _ _ hi',
      List.getElem_take, groupBytes_getElem_toNat]
  · rw [hk0 j hj]
    split
    · exact List.getD_eq_default _ _ (by omega)
    · rfl

end Sys2Proof.Machine
end

section
/-! SUPPORT. Base32 (R119 to R121): the reference decoder group by group, in the terms in which `KCHAR` reads a group. -/

namespace Sys2Proof.Machine

open Sys2Proof

/-! ### Characters -/

/-- Settles O39: the two ranges of the alphabet, and the bytes outside both. -/
theorem base32AlphabetOfThirtyTwo : Obligations.Base32AlphabetOfThirtyTwo := by
  unfold Obligations.Base32AlphabetOfThirtyTwo
  refine ⟨by decide, by decide, fun c hletter hdigit => ?_⟩
  have hletter' : ¬ (0x41 ≤ c ∧ c ≤ 0x5A) := hletter
  have hdigit' : ¬ (0x32 ≤ c ∧ c ≤ 0x37) := hdigit
  rw [b32Val, if_neg hletter', if_neg hdigit']

/-- The five bits a character shifts into its group: 00000 for a pad character (R122). -/
def charBits (c : Byte) : BitVec 5 := (b32Val c).getD 0

theorem charBits_padChar : charBits padChar = 0 := rfl

theorem charBits_of_val {c : Byte} {v : BitVec 5} (h : b32Val c = some v) : charBits c = v := by
  rw [charBits, h]; rfl

theorem b32ValD_eq_charBits (c : Byte) : b32ValD c = (charBits c).toNat := by
  unfold b32ValD charBits
  cases b32Val c <;> rfl

/-! ### The accumulator -/

/-- The accumulator after one more character (R122). -/
def shiftIn (acc : BitVec 40) (c : Byte) : BitVec 40 := acc * 32 + (charBits c).setWidth 40

/-- The 40 bits that the characters of a group shift in, in order. -/
def groupBits (p : List Byte) : BitVec 40 := p.foldl shiftIn 0

theorem groupBits_append_singleton (p : List Byte) (c : Byte) :
    groupBits (p ++ [c]) = groupBits p * 32 + (charBits c).setWidth 40 := by
  simp [groupBits, shiftIn]

theorem shiftIn_ofNat (n : Nat) (c : Byte) : shiftIn (BitVec.ofNat 40 n) c = BitVec.ofNat 40 (n * 32 + b32ValD c) := by
  rw [shiftIn, b32ValD_eq_charBits, BitVec.ofNat_add, BitVec.ofNat_mul, BitVec.ofNat_toNat]
  rfl

theorem foldl_shiftIn_ofNat (p : List Byte) (n : Nat) :
    p.foldl shiftIn (BitVec.ofNat 40 n) = BitVec.ofNat 40 (p.foldl (fun n c => n * 32 + b32ValD c) n) := by
  induction p generalizing n with
  | nil => rfl
  | cons c p ih => rw [List.foldl_cons, shiftIn_ofNat, ih, List.foldl_cons]

/-- Reading digits to the base 32, most significant first, is summing them with their weights. -/
theorem foldl_digits_eq_sum (v : Byte → Nat) (p : List Byte) (n : Nat) :
    p.foldl (fun n c => n * 32 + v c) n = n * 2 ^ (5 * p.length) +
      ((List.range p.length).map fun i => v (p.getD i 0) * 2 ^ (5 * (p.length - 1 - i))).sum := by
  induction p generalizing n with
  | nil => simp
  | cons c p ih =>
    have hweights : ∀ i, p.length - 1 - i = p.length - (i + 1) := by omega
    have hpow : 2 ^ (5 * (p.length + 1)) = 2 ^ (5 * p.length) * 32 := pow_add 2 (5 * p.length) 5
    rw [List.foldl_cons, ih, List.length_cons, List.range_succ_eq_map, List.map_cons, List.sum_cons, List.map_map]
    simp only [Function.comp_def, List.getD_cons_zero, List.getD_cons_succ, Nat.add_sub_cancel, Nat.sub_zero,
      Nat.succ_eq_add_one, hweights, hpow]
    ring

/-- Shifting eight characters in weighs character i with 2^(5 · (7 − i)), as R121 does. -/
theorem groupBits_eq_groupAcc {grp : List Byte} (h : grp.length = 8) :
    groupBits grp = BitVec.ofNat 40 (groupAcc grp 8) := by
  rw [groupBits, show (0 : BitVec 40) = BitVec.ofNat 40 0 from rfl, foldl_shiftIn_ofNat, foldl_digits_eq_sum, h,
    Nat.zero_mul, Nat.zero_add]
  rfl

/-- Characters that are pads add nothing to the sum of R121. -/
theorem groupAcc_of_pads {grp : List Byte} {d n : Nat} (hd : d ≤ n)
    (hpads : ∀ i, d ≤ i → i < n → grp.getD i 0 = padChar) : groupAcc grp n = groupAcc grp d := by
  obtain ⟨m, rfl⟩ := Nat.exists_eq_add_of_le hd
  rw [groupAcc, List.range_add, List.map_append, List.sum_append, groupAcc, Nat.add_eq_left]
  refine List.sum_eq_zero fun x hx => ?_
  simp only [List.map_map, List.mem_map, List.mem_range, Function.comp_apply] at hx
  obtain ⟨i, hi, rfl⟩ := hx
  rw [hpads _ (by omega) (by omega), b32ValD_eq_charBits, charBits_padChar]
  simp

/-! ### The shape of a group: characters of the alphabet, then pad characters only -/

/-- The pad characters of a group, counted from the first one on. -/
def padCount (p : List Byte) : Nat := (p.dropWhile (· ≠ padChar)).length

/-- Every character before the first pad character has a value, and every one after it is a pad character (R121). -/
def Shaped (p : List Byte) : Prop :=
  (∀ c ∈ p.takeWhile (· ≠ padChar), b32Val c ≠ none) ∧ ∀ c ∈ p.dropWhile (· ≠ padChar), c = padChar

theorem shaped_nil : Shaped [] := by simp [Shaped]

theorem padCount_le (p : List Byte) : padCount p ≤ p.length := (List.dropWhile_sublist _).length_le

theorem takeWhile_length_add_padCount (p : List Byte) :
    (p.takeWhile (· ≠ padChar)).length + padCount p = p.length := by
  rw [padCount, ← List.length_append, List.takeWhile_append_dropWhile]

theorem padCount_eq_zero_iff {p : List Byte} : padCount p = 0 ↔ ∀ c ∈ p, c ≠ padChar := by
  simp [padCount, List.dropWhile_eq_nil_iff]

/-- One more character after a group without pad characters. -/
theorem shaped_append_of_padCount_eq_zero {p : List Byte} {c : Byte} (h : padCount p = 0) :
    (Shaped (p ++ [c]) ↔ Shaped p ∧ (c = padChar ∨ b32Val c ≠ none)) ∧
      padCount (p ++ [c]) = if c = padChar then 1 else 0 := by
  have hp : ∀ a ∈ p, decide (a ≠ padChar) = true := by simpa using padCount_eq_zero_iff.mp h
  have htake : p.takeWhile (· ≠ padChar) = p := List.takeWhile_eq_self_iff.mpr hp
  have hdrop : p.dropWhile (· ≠ padChar) = [] := List.dropWhile_eq_nil_iff.mpr hp
  unfold Shaped padCount
  rw [List.takeWhile_append_of_pos hp, List.dropWhile_append_of_pos hp, htake, hdrop]
  by_cases hc : c = padChar
  · simp [hc]
  · simp [hc, or_imp, forall_and]

/-- One more character after a pad character. -/
theorem shaped_append_of_padCount_pos {p : List Byte} {c : Byte} (h : 0 < padCount p) :
    (Shaped (p ++ [c]) ↔ Shaped p ∧ c = padChar) ∧ padCount (p ++ [c]) = padCount p + 1 := by
  have hdrop : p.dropWhile (· ≠ padChar) ≠ [] := List.ne_nil_of_length_pos h
  have hne : (p.takeWhile (· ≠ padChar)).length ≠ p.length := by
    have := takeWhile_length_add_padCount p
    omega
  unfold Shaped padCount
  rw [List.takeWhile_append, if_neg hne, List.dropWhile_append, if_neg (by simpa using hdrop)]
  simp [or_imp, forall_and, and_assoc]

/-- A pad character always goes on with a group; a character of the alphabet does before the first of them (R122). -/
theorem shaped_append_iff {p : List Byte} {c : Byte} :
    Shaped (p ++ [c]) ↔ Shaped p ∧ (c = padChar ∨ (b32Val c ≠ none ∧ padCount p = 0)) := by
  obtain h | h := (padCount p).eq_zero_or_pos
  · simp [(shaped_append_of_padCount_eq_zero h).1, h]
  · simp [(shaped_append_of_padCount_pos h).1, h.ne']

theorem padCount_append_padChar (p : List Byte) : padCount (p ++ [padChar]) = padCount p + 1 := by
  obtain h | h := (padCount p).eq_zero_or_pos
  · rw [(shaped_append_of_padCount_eq_zero h).2, if_pos rfl, h]
  · exact (shaped_append_of_padCount_pos h).2

theorem padCount_append_of_ne {p : List Byte} {c : Byte} (h : padCount p = 0) (hc : c ≠ padChar) :
    padCount (p ++ [c]) = 0 := by
  rw [(shaped_append_of_padCount_eq_zero h).2, if_neg hc]

theorem Shaped.of_append {p cs : List Byte} (h : Shaped (p ++ cs)) : Shaped p := by
  induction cs using List.reverseRecOn with
  | nil => simpa using h
  | append_singleton cs c ih =>
    rw [← List.append_assoc] at h
    exact ih (shaped_append_iff.mp h).1

/-! ### The reference decoder -/

theorem take_takeWhile_length {α : Type} (p : α → Bool) (xs : List α) :
    xs.take (xs.takeWhile p).length = xs.takeWhile p :=
  (congrArg (List.take _) (List.takeWhile_append_dropWhile (p := p) (l := xs)).symm).trans List.take_left

theorem drop_takeWhile_length {α : Type} (p : α → Bool) (xs : List α) :
    xs.drop (xs.takeWhile p).length = xs.dropWhile p :=
  (congrArg (List.drop _) (List.takeWhile_append_dropWhile (p := p) (l := xs)).symm).trans List.drop_left

/-- The sum of R121 over the characters before the first pad character is what a shaped group shifts in. -/
theorem Shaped.groupBits_eq {grp : List Byte} (hs : Shaped grp) (h8 : grp.length = 8) :
    groupBits grp = BitVec.ofNat 40 (groupAcc grp (grp.takeWhile (· ≠ padChar)).length) := by
  have hsum := takeWhile_length_add_padCount grp
  rw [groupBits_eq_groupAcc h8]
  refine congrArg _ (groupAcc_of_pads (by omega) fun i hd hi => hs.2 _ ?_)
  rw [← drop_takeWhile_length, List.getD_eq_getElem _ _ (by omega)]
  exact List.mem_drop_iff_getElem.mpr ⟨i - (grp.takeWhile (· ≠ padChar)).length, by omega,
    getElem_congr_idx (Nat.add_sub_cancel' hd)⟩

/-- A group of R121 decodes exactly when it has the shape, its pad count carries whole bytes, and it is padded only as
the last one; its bytes are those of the bits shifted in. -/
theorem b32Group_eq_some {isLast : Bool} {grp out : List Byte} (h8 : grp.length = 8) :
    b32Group isLast grp = some out ↔
      Shaped grp ∧ ∃ n, nBytes (padCount grp) = some n ∧ (padCount grp = 0 ∨ isLast = true) ∧
        (groupBytes (groupBits grp)).take n = out := by
  have hsum := takeWhile_length_add_padCount grp
  have hpads : 8 - (grp.takeWhile (· ≠ padChar)).length = padCount grp := by omega
  unfold b32Group
  simp only [drop_takeWhile_length, take_takeWhile_length, hpads]
  by_cases hs : Shaped grp
  · have hs1 : (grp.dropWhile (· ≠ padChar)).any (· ≠ padChar) = false := by
      simpa using hs.2
    have hs2 : (grp.takeWhile (· ≠ padChar)).any (fun c => b32Val c = none) = false := by
      simpa using hs.1
    rw [← hs.groupBits_eq h8, hs1, hs2]
    cases nBytes (padCount grp) with
    | none => simp
    | some n => cases isLast <;> simp [hs]
  · refine iff_of_false (fun h => ?_) (fun h => hs h.1)
    split at h
    · cases h
    next hpad =>
      split at h
      · cases h
      next hval => exact hs ⟨by simpa using hval, by simpa using hpad⟩

/-- The reference decoder takes a text group by group; a group is the last one when no character follows (R121). -/
theorem b32Decode_append_eq_some {grp rest k : List Byte} (h8 : grp.length = 8) :
    b32Decode (grp ++ rest) = some k ↔
      ∃ out more, b32Group rest.isEmpty grp = some out ∧ b32Decode rest = some more ∧ out ++ more = k := by
  have hmod : (grp ++ rest).length % 8 = rest.length % 8 := by simp; omega
  have hdiv : (grp ++ rest).length / 8 = rest.length / 8 + 1 := by simp; omega
  unfold b32Decode
  rw [hmod, hdiv]
  split
  · simp
  · have hlast : decide (rest.length / 8 = 0) = rest.isEmpty := by
      rw [Bool.eq_iff_iff, decide_eq_true_iff, List.isEmpty_iff, ← List.length_eq_zero_iff]
      omega
    rw [b32Groups, List.take_append_of_le_length h8.ge, List.drop_append_of_le_length h8.ge, hlast,
      List.take_of_length_le h8.le, List.drop_of_length_le h8.le, List.nil_append]
    cases b32Group rest.isEmpty grp <;> cases b32Groups (rest.length / 8) rest <;> simp

end Sys2Proof.Machine
end

section
/-! SUPPORT. The serial decoder (R122) against the reference decoder (R121): what `KCHAR` does inside a group, over a
whole group, over a whole text, and the two halves of the Base32 path law (R125). -/

namespace Sys2Proof.Machine

open Sys2Proof

/-! ### Inside a group -/

/-- A key is being loaded, of which the bytes `k` are pushed, and the characters `p` stand in the open group. -/
structure Regs.InGroup (ctr : BitVec 64) (k p : List Byte) (r : Regs) : Prop where
  loads : r.Loads ctr k
  phase : r.phase = .idle ∨ r.phase = .keyB32
  bend : r.bend = false
  bacc : r.bacc = groupBits p
  bn : r.bn.toNat = p.length
  bpad : r.bpad.toNat = padCount p

theorem Regs.InGroup.kchar_legal {ctr : BitVec 64} {k p : List Byte} {r : Regs} (hr : r.InGroup ctr k p) (c : Byte) :
    legality (.kchar c) r.phase = .ok :=
  legality_kchar_ok.mpr hr.phase

/-- The phases in which `KCHAR` is legal are outside `ERROR` (R78). -/
theorem Phase.ne_error_of_kchar {p : Phase} (h : p = .idle ∨ p = .keyB32) : p ≠ .error := by
  obtain rfl | rfl := h <;> decide

/-- In `IDLE` no character is held (R39, item 3). -/
theorem Regs.Inv.idle_inGroup {keyMax : Nat} {r : Regs} (hi : r.Inv keyMax) (hp : r.phase = .idle) :
    r.InGroup r.ctr [] [] := by
  obtain ⟨hbacc, hbn, hbpad, hbend⟩ := hi.decoder_zero (.inl hp)
  exact ⟨hi.idle_loads hp, .inl hp, hbend, hbacc, by rw [hbn]; rfl, by rw [hbpad]; rfl⟩

/-- `KCHAR` accepts a character that keeps the shape of the group (R122). -/
theorem kcharRule_of_shaped {keyMax : Nat} {ctr : BitVec 64} {k p : List Byte} {c : Byte} {r : Regs}
    (hr : r.InGroup ctr k p) (hs : Shaped (p ++ [c])) :
    kcharRule keyMax c r = acceptChar keyMax (charBits c) (padCount (p ++ [c])) r := by
  by_cases hc : c = padChar
  · rw [hc, kcharRule_of_pad hr.bend, charBits_padChar, padCount_append_padChar, hr.bpad]
  · obtain ⟨hv, hpad⟩ := (shaped_append_iff.mp hs).2.resolve_left hc
    obtain ⟨v, hv⟩ := Option.ne_none_iff_exists'.mp hv
    have hbpad : r.bpad = 0 := BitVec.eq_of_toNat_eq (hr.bpad.trans hpad)
    rw [kcharRule_of_val hr.bend hv hbpad, charBits_of_val hv, padCount_append_of_ne hpad hc]

/-- `KCHAR` raises `InvalidKey` on a character that breaks the shape of the group (R122, R186). -/
theorem kcharRule_of_not_shaped {keyMax : Nat} {ctr : BitVec 64} {k p : List Byte} {c : Byte} {r : Regs}
    (hr : r.InGroup ctr k p) (hp : Shaped p) (hs : ¬ Shaped (p ++ [c])) :
    kcharRule keyMax c r = .error .invalidKey := by
  rw [shaped_append_iff] at hs
  obtain ⟨hc, hval⟩ : c ≠ padChar ∧ (b32Val c ≠ none → padCount p ≠ 0) := by tauto
  rw [kcharRule, if_neg (by simp [hr.bend]), if_neg hc]
  cases hv : b32Val c with
  | none => rfl
  | some v =>
    have hbpad : r.bpad ≠ 0 := fun h => hval (by simp [hv]) (by rw [← hr.bpad, h]; rfl)
    exact if_pos hbpad

/-- `KCHAR` after a padded group raises `InvalidKey` (R122, R186). -/
theorem kcharRule_of_bend {keyMax : Nat} {c : Byte} {r : Regs} (h : r.bend = true) :
    kcharRule keyMax c r = .error .invalidKey :=
  if_pos h

/-- A character before the eighth stands in the group (R122). -/
theorem Regs.InGroup.enterChar {ctr : BitVec 64} {k p : List Byte} {r : Regs} (hr : r.InGroup ctr k p)
    (hlen : p.length < 7) (c : Byte) : (r.enterChar (charBits c) (padCount (p ++ [c]))).InGroup ctr k (p ++ [c]) := by
  have hpads := padCount_le (p ++ [c])
  rw [List.length_append, List.length_singleton] at hpads
  refine ⟨⟨hr.loads.holds.congr rfl rfl rfl rfl, hr.loads.closes⟩, .inr rfl, hr.bend, ?_, ?_, ?_⟩
  · simp only [Regs.enterChar, hr.bacc, groupBits_append_singleton]
  · simp only [Regs.enterChar, bn_succ_toNat (show r.bn.toNat < 7 by rw [hr.bn]; exact hlen), hr.bn, List.length_append,
      List.length_singleton]
  · exact Nat.mod_eq_of_lt (by omega)

/-- Characters of a shaped group before its eighth are answered 0x0000 and stand in the group. -/
theorem runs_inGroup {keyMax : Nat} {ctr : BitVec 64} {k : List Byte} (cs : List Byte) {p : List Byte} {r : Regs}
    (hr : r.InGroup ctr k p) (hs : Shaped (p ++ cs)) (hlen : p.length + cs.length ≤ 7) :
    ∃ q, Runs keyMax (cs.map .kchar) r q (List.replicate cs.length 0x0000) ∧ q.InGroup ctr k (p ++ cs) := by
  induction cs generalizing p r with
  | nil => exact ⟨r, Runs.nil keyMax r, by simpa using hr⟩
  | cons c cs ih =>
    rw [List.length_cons] at hlen
    have hsplit : p ++ c :: cs = p ++ [c] ++ cs := by simp
    rw [hsplit] at hs ⊢
    have hbn : r.bn.toNat < 7 := by rw [hr.bn]; omega
    have hone : Runs keyMax [.kchar c] r (r.enterChar (charBits c) (padCount (p ++ [c]))) [0x0000] :=
      Runs.of_ok rfl (hr.kchar_legal c) ((kcharRule_of_shaped hr hs.of_append).trans (acceptChar_of_lt hbn))
    obtain ⟨q, hruns, hq⟩ := ih (hr.enterChar (by omega) c) hs (by simp; omega)
    exact ⟨q, hone.append hruns, hq⟩

/-! ### A whole group -/

/-- The eighth character of a shaped group closes it (R122). -/
theorem kcharRule_of_eighth {keyMax : Nat} {ctr : BitVec 64} {k p : List Byte} {c : Byte} {r : Regs}
    (hr : r.InGroup ctr k p) (hs : Shaped (p ++ [c])) (h7 : p.length = 7) :
    kcharRule keyMax c r = emitGroup keyMax (groupBits (p ++ [c])) (padCount (p ++ [c])) r := by
  rw [kcharRule_of_shaped hr hs, acceptChar_of_ge (by rw [hr.bn]; omega), hr.bacc, groupBits_append_singleton]

/-- A key is being loaded, and the decoder stands at the start of a group, after a padded one or not. -/
structure Regs.AtGroup (ctr : BitVec 64) (k : List Byte) (padded : Bool) (r : Regs) : Prop where
  loads : r.Loads ctr k
  phase : r.phase = .keyB32
  bend : r.bend = padded
  bacc : r.bacc = 0
  bn : r.bn = 0
  bpad : r.bpad = 0

theorem Regs.AtGroup.inGroup {ctr : BitVec 64} {k : List Byte} {r : Regs} (h : r.AtGroup ctr k false) :
    r.InGroup ctr k [] :=
  ⟨h.loads, .inr h.phase, h.bend, h.bacc, by rw [h.bn]; rfl, by rw [h.bpad]; rfl⟩

theorem leaveGroup_atGroup {ctr : BitVec 64} {k : List Byte} {q : Regs} (hq : q.Loads ctr k) (pads : Nat) :
    (q.leaveGroup pads).AtGroup ctr k (decide (0 < pads)) :=
  ⟨⟨hq.holds.congr rfl rfl rfl rfl, hq.closes⟩, rfl, rfl, rfl, rfl, rfl⟩

/-- Pushed bytes are appended to the key that is loaded. -/
theorem Regs.Loads.pushAll {keyMax : Nat} {ctr : BitVec 64} {k bs : List Byte} {r : Regs} (hk : keyMax < 2 ^ 64)
    (hr : r.Loads ctr k) (hle : k.length + bs.length ≤ keyMax) :
    ∃ q, keyPushAll keyMax bs r = .ok q ∧ q.Loads ctr (k ++ bs) := by
  obtain ⟨q, hpush, hq⟩ := hr.holds.pushAll hk hle
  exact ⟨q, hpush, hq, fun k0 => (keyPushAll_closeWith hpush k0).trans (hr.closes k0)⟩

/-- A group of eight characters is seven and an eighth. -/
theorem exists_eq_append_of_length_eight {grp : List Byte} (h8 : grp.length = 8) :
    ∃ p c, grp = p ++ [c] ∧ p.length = 7 := by
  have hne : grp ≠ [] := by rintro rfl; simp at h8
  exact ⟨grp.dropLast, grp.getLast hne, (List.dropLast_append_getLast hne).symm, by simp [h8]⟩

/-- A group that decodes loads its bytes, every response 0x0000. -/
theorem runs_group {keyMax : Nat} (hk : keyMax < 2 ^ 64) {ctr : BitVec 64} {k grp : List Byte} {n : Nat} {r : Regs}
    (hr : r.InGroup ctr k []) (h8 : grp.length = 8) (hs : Shaped grp) (hn : nBytes (padCount grp) = some n)
    (hle : k.length + n ≤ keyMax) :
    ∃ q, Runs keyMax (grp.map .kchar) r q (List.replicate grp.length 0x0000) ∧
      q.AtGroup ctr (k ++ (groupBytes (groupBits grp)).take n) (decide (0 < padCount grp)) := by
  obtain ⟨p, c, rfl, h7⟩ := exists_eq_append_of_length_eight h8
  obtain ⟨q, hruns, hq⟩ := runs_inGroup (keyMax := keyMax) p hr hs.of_append (by simp [h7])
  rw [List.nil_append] at hq
  obtain ⟨u, hpush, hu⟩ := hq.loads.pushAll (bs := (groupBytes (groupBits (p ++ [c]))).take n) hk
    (by rw [groupBytes_take_length hn]; exact hle)
  have hlast : Runs keyMax [.kchar c] q (u.leaveGroup (padCount (p ++ [c]))) [0x0000] :=
    Runs.of_ok rfl (hq.kchar_legal c) ((kcharRule_of_eighth hq hs h7).trans (emitGroup_of_push hn hpush))
  refine ⟨_, ?_, leaveGroup_atGroup hu _⟩
  rw [List.map_append, List.length_append, List.length_singleton, List.replicate_succ']
  exact hruns.append hlast

/-- A text is read group by group: what holds of a text shorter than a group, and of a group before a text of which it
holds, holds of every text. -/
theorem text_induction {motive : List Byte → Prop} (short : ∀ text, text.length < 8 → motive text)
    (group : ∀ grp rest, grp.length = 8 → motive rest → motive (grp ++ rest)) (text : List Byte) : motive text := by
  induction hn : text.length using Nat.strong_induction_on generalizing text with
  | _ n ih =>
    by_cases hlt : text.length < 8
    · exact short text hlt
    · have h8 : (text.take 8).length = 8 := List.length_take_of_le (by omega)
      rw [← List.take_append_drop 8 text]
      exact group _ _ h8 (ih (text.drop 8).length (by simp; omega) _ rfl)

/-! ### A text that decodes -/

/-- The empty text is the only one shorter than a group that decodes (R121). -/
theorem b32Decode_of_short {text : List Byte} (h : text.length < 8) :
    b32Decode text = if text = [] then some [] else none := by
  cases text with
  | nil => rfl
  | cons c text => exact if_pos (by rw [List.length_cons] at h ⊢; omega)

/-- The characters of a text that decodes load its key bytes and end at the start of a group. -/
theorem runs_text {keyMax : Nat} (hk : keyMax < 2 ^ 64) {ctr : BitVec 64} (text : List Byte) {k out : List Byte}
    {r : Regs} (hr : r.InGroup ctr k []) (hdec : b32Decode text = some out) (hle : k.length + out.length ≤ keyMax) :
    ∃ q, Runs keyMax (text.map .kchar) r q (List.replicate text.length 0x0000) ∧ q.Loads ctr (k ++ out) ∧ q.bn = 0 ∧
      q.phase.loading := by
  induction text using text_induction generalizing k out r with
  | short text hlt =>
    rw [b32Decode_of_short hlt] at hdec
    split at hdec <;> cases hdec
    subst text
    refine ⟨r, Runs.nil keyMax r, by simpa using hr.loads, BitVec.eq_of_toNat_eq hr.bn, hr.phase.imp_right .inr⟩
  | group grp rest h8 ih =>
    obtain ⟨bytes, more, hgrp, hrest, rfl⟩ := (b32Decode_append_eq_some h8).mp hdec
    obtain ⟨hs, n, hn, hlast, rfl⟩ := (b32Group_eq_some h8).mp hgrp
    rw [List.length_append, groupBytes_take_length hn] at hle
    obtain ⟨q, hruns, hq⟩ := runs_group hk hr h8 hs hn (by omega)
    obtain hpads | hpads := hlast
    · have hq' : q.AtGroup ctr (k ++ (groupBytes (groupBits grp)).take n) false := by simpa [hpads] using hq
      obtain ⟨u, hmore, hu, hend⟩ := ih hq'.inGroup hrest (by rw [List.length_append, groupBytes_take_length hn]; omega)
      refine ⟨u, ?_, by rwa [← List.append_assoc], hend⟩
      rw [List.map_append, List.length_append, List.replicate_add]
      exact hruns.append hmore
    · obtain rfl := List.isEmpty_iff.mp hpads
      cases hrest
      exact ⟨q, by simpa using hruns, by simpa using hq.loads, hq.bn, .inr (.inr hq.phase)⟩

/-- Settles O46: the characters by `runs_text`, then `KEND` by `runs_kend`. -/
theorem base32PathLoadsTheDecodedKey : Obligations.Base32PathLoadsTheDecodedKey := by
  unfold Obligations.Base32PathLoadsTheDecodedKey
  intro s text k hs hp hdec hlen
  obtain ⟨⟨-, hmax⟩, hi⟩ := hs
  obtain ⟨q, hruns, hq, hbn, hqp⟩ := runs_text (keyMax := s.cfg.keyMax) (by omega) text (hi.idle_inGroup hp) hdec
    (by simpa using hlen)
  rw [List.replicate_succ']
  exact (hruns.append (runs_kend hq hbn hqp)).endsIn

/-! ### A text that does not decode -/

/-- Some command of the text and its `KEND` raises `InvalidKey`; those before it are answered 0x0000, those after it
refused. -/
def Rejects (keyMax : Nat) (text : List Byte) (r : Regs) : Prop :=
  ∃ m, m ≤ text.length ∧ Runs keyMax (keyB32Cmds text) r (faultRegs .invalidKey)
    (List.replicate m 0x0000 ++ List.replicate (text.length + 1 - m) 0x8000)

/-- Characters answered 0x0000, then a text that is rejected. -/
theorem Rejects.append {keyMax : Nat} {cs text : List Byte} {r q : Regs}
    (h : Runs keyMax (cs.map .kchar) r q (List.replicate cs.length 0x0000)) (h' : Rejects keyMax text q) :
    Rejects keyMax (cs ++ text) r := by
  obtain ⟨m, hm, hruns⟩ := h'
  refine ⟨cs.length + m, by simp; omega, ?_⟩
  have hcount : (cs ++ text).length + 1 - (cs.length + m) = text.length + 1 - m := by simp; omega
  have hcmds : keyB32Cmds (cs ++ text) = cs.map .kchar ++ keyB32Cmds text := by simp [keyB32Cmds]
  rw [hcount, hcmds, List.replicate_add, List.append_assoc]
  exact h.append hruns

/-- A character that raises: every command after it is refused (R191). -/
theorem Rejects.of_kchar {keyMax : Nat} {c : Byte} {text : List Byte} {r : Regs}
    (hp : r.phase = .idle ∨ r.phase = .keyB32) (h : kcharRule keyMax c r = .error .invalidKey) : Rejects keyMax (c :: text) r := by
  refine ⟨0, Nat.zero_le _, ?_⟩
  have hone : Runs keyMax [.kchar c] r (faultRegs .invalidKey) [faultRsp] :=
    Runs.of_raise rfl (legality_kchar_ok.mpr hp) (Phase.ne_error_of_kchar hp) h
  have hrest : Runs keyMax (keyB32Cmds text) (faultRegs .invalidKey) (faultRegs .invalidKey)
      (List.replicate (keyB32Cmds text).length faultRsp) := by
    refine Runs.of_error rfl fun i hi => ?_
    simp only [keyB32Cmds, List.mem_append, List.mem_map, List.mem_singleton] at hi
    obtain ⟨a, -, rfl⟩ | rfl := hi <;> simp [Instr.wellFormed]
  have hlen : (keyB32Cmds text).length = text.length + 1 := by simp [keyB32Cmds]
  rw [hlen] at hrest
  exact hone.append hrest

/-- `KEND` inside a group raises (R123, R186). -/
theorem Rejects.of_kend {keyMax : Nat} {r : Regs} (hp : r.phase = .idle ∨ r.phase = .keyB32) (h : r.bn ≠ 0) :
    Rejects keyMax [] r :=
  ⟨0, le_rfl, Runs.of_raise rfl (legality_kend_ok.mpr (hp.imp_right .inr)) (Phase.ne_error_of_kchar hp)
    (kendRule_of_bn_ne_zero h)⟩

/-- A group whose shape breaks is rejected at the character that breaks it. -/
theorem rejects_of_not_shaped {keyMax : Nat} {ctr : BitVec 64} {k : List Byte} (cs rest : List Byte) {p : List Byte}
    {r : Regs} (hr : r.InGroup ctr k p) (hp : Shaped p) (hs : ¬ Shaped (p ++ cs)) (hlen : p.length + cs.length ≤ 8) :
    Rejects keyMax (cs ++ rest) r := by
  induction cs generalizing p r with
  | nil => exact absurd (by simpa using hp) hs
  | cons c cs ih =>
    by_cases hc : Shaped (p ++ [c])
    · have hne : cs ≠ [] := by rintro rfl; exact hs hc
      have hpos := List.length_pos_of_ne_nil hne
      rw [List.length_cons] at hlen
      obtain ⟨q, hone, hq⟩ := runs_inGroup (keyMax := keyMax) [c] hr hc (by simp; omega)
      exact Rejects.append (cs := [c]) hone (ih hq hc (by simpa using hs) (by simp; omega))
    · exact Rejects.of_kchar hr.phase (kcharRule_of_not_shaped hr hp hc)

/-- A shaped group with an illegal pad count is rejected at its eighth character. -/
theorem rejects_of_padCount {keyMax : Nat} {ctr : BitVec 64} {k grp rest : List Byte} {r : Regs}
    (hr : r.InGroup ctr k []) (h8 : grp.length = 8) (hs : Shaped grp) (hn : nBytes (padCount grp) = none) : Rejects keyMax (grp ++ rest) r := by
  obtain ⟨p, c, rfl, h7⟩ := exists_eq_append_of_length_eight h8
  obtain ⟨q, hruns, hq⟩ := runs_inGroup (keyMax := keyMax) p hr hs.of_append (by simp [h7])
  rw [List.append_assoc]
  refine Rejects.append hruns (Rejects.of_kchar hq.phase ?_)
  exact (kcharRule_of_eighth hq hs h7).trans (emitGroup_of_none hn _ q)

/-- A good group, not padded before further characters, and a rest that decodes make a text that decodes (R121). -/
theorem b32Decode_group_append_ne_none {grp rest more : List Byte} {n : Nat} (h8 : grp.length = 8) (hs : Shaped grp)
    (hn : nBytes (padCount grp) = some n) (hlast : padCount grp = 0 ∨ rest = []) (hmore : b32Decode rest = some more) :
    b32Decode (grp ++ rest) ≠ none := by
  have hgrp := (b32Group_eq_some h8).mpr ⟨hs, n, hn, hlast.imp_right List.isEmpty_iff.mpr, rfl⟩
  exact Option.ne_none_iff_exists'.mpr ⟨_, (b32Decode_append_eq_some h8).mpr ⟨_, more, hgrp, hmore, rfl⟩⟩

/-- A text shorter than a group that does not decode is rejected in the group it opens or by its `KEND`. -/
theorem rejects_of_short {keyMax : Nat} {ctr : BitVec 64} {k text : List Byte} {r : Regs} (hr : r.InGroup ctr k [])
    (hlt : text.length < 8) (hdec : b32Decode text = none) : Rejects keyMax text r := by
  have hne : text ≠ [] := by rintro rfl; cases hdec
  have hpos := List.length_pos_of_ne_nil hne
  rw [← List.append_nil text]
  by_cases hs : Shaped text
  · obtain ⟨q, hruns, hq⟩ := runs_inGroup (keyMax := keyMax) text hr hs (by simp; omega)
    rw [List.nil_append] at hq
    exact Rejects.append hruns (Rejects.of_kend hq.phase fun h => by simp [← hq.bn, h] at hpos)
  · exact rejects_of_not_shaped text [] hr shaped_nil hs (by simp; omega)

/-- A text that does not decode and whose complete groups fit below `KEYMAX` is rejected (R125, log entry 9). -/
theorem rejects_text {keyMax : Nat} (hk : keyMax < 2 ^ 64) {ctr : BitVec 64} (text : List Byte) {k : List Byte}
    {r : Regs} (hr : r.InGroup ctr k []) (hdec : b32Decode text = none) (hle : k.length + text.length / 8 * 5 ≤ keyMax) :
    Rejects keyMax text r := by
  induction text using text_induction generalizing k r with
  | short text hlt => exact rejects_of_short hr hlt hdec
  | group grp rest h8 ih =>
    by_cases hs : Shaped grp
    case neg => exact rejects_of_not_shaped grp rest hr shaped_nil hs (by simp [h8])
    cases hn : nBytes (padCount grp) with
    | none => exact rejects_of_padCount hr h8 hs hn
    | some n =>
      have hn5 := (nBytes_range hn).2
      rw [List.length_append, h8] at hle
      obtain ⟨q, hruns, hq⟩ := runs_group hk hr h8 hs hn (by omega)
      refine Rejects.append hruns ?_
      obtain hpads | hpads := (padCount grp).eq_zero_or_pos
      · have hq' : q.AtGroup ctr (k ++ (groupBytes (groupBits grp)).take n) false := by simpa [hpads] using hq
        refine ih hq'.inGroup ?_ (by rw [List.length_append, groupBytes_take_length hn]; omega)
        exact Option.eq_none_iff_forall_ne_some.mpr fun more hmore =>
          b32Decode_group_append_ne_none h8 hs hn (.inl hpads) hmore hdec
      · have hbend : q.bend = true := by simpa [hpads] using hq.bend
        cases rest with
        | nil => exact absurd hdec (b32Decode_group_append_ne_none h8 hs hn (.inr rfl) rfl)
        | cons c rest => exact Rejects.of_kchar (.inr hq.phase) (kcharRule_of_bend hbend)

/-- Settles O47: the rejection of the text, by `rejects_text`. -/
theorem base32PathRejectsAnInvalidText : Obligations.Base32PathRejectsAnInvalidText := by
  unfold Obligations.Base32PathRejectsAnInvalidText
  intro s text hs hp hdec hlen
  obtain ⟨⟨-, hmax⟩, hi⟩ := hs
  obtain ⟨m, hm, hruns⟩ := rejects_text (keyMax := s.cfg.keyMax) (by omega) text (hi.idle_inGroup hp) hdec
    (by simpa using hlen)
  exact ⟨m, hm, hruns.endsIn⟩

end Sys2Proof.Machine
end

section
/-! SUPPORT. The counter (R140, R142): what `CBYTE` does, what it leaves alone, and what the bytes of `CTR64` leave in
`CTR`. -/

namespace Sys2Proof.Machine

open Sys2Proof

/-! ### One byte (R140) -/

theorem shiftCounter_toNat (ctr : BitVec 64) (b : Byte) :
    (shiftCounter ctr b).toNat = (ctr.toNat * 256 + b.toNat) % 2 ^ 64 :=
  BitVec.toNat_ofNat _ _

/-- Settles O18: the counter's shift where the table says "ok", and the table's answers in `DONE` and in `ERROR`. -/
theorem cbyteShiftsTheCounter : Obligations.CbyteShiftsTheCounter := by
  unfold Obligations.CbyteShiftsTheCounter
  intro s b
  have hwf : (Instr.cbyte b).wellFormed = true := rfl
  refine ⟨by simp [encode_toNat, opcode, lowByte], fun hd he => ?_, fun hp => ?_, fun hp => ?_⟩
  · exact ⟨shiftCounter s.regs.ctr b, shiftCounter_toNat _ _,
      exec_eq_afterOk hwf (legality_cbyte_ok.mpr ⟨hd, he⟩) rfl⟩
  · exact exec_eq_sequenceError hwf (by rw [hp]; rfl) (by simp [hp])
  · exact exec_eq_afterRefusal hwf (by rw [hp]; rfl)

/-- Settles O29: an answer outside `ERROR` is the shift of `CTR`, which the window does not show. -/
theorem counterFrame : Obligations.CounterFrame := by
  unfold Obligations.CounterFrame
  intro b s t he ht
  obtain ⟨-, d, hr⟩ := exec_of_phase_ne_error he ht
  obtain ⟨hregs, -⟩ := Prod.mk.inj (Except.ok.inj hr)
  rw [← hregs]
  exact ⟨rfl, fun _ => rfl⟩

/-! ### Several bytes -/

/-- `CBYTE` of each byte of a string shifts them in one after the other, in every phase where it is legal. -/
theorem runs_cbytes {keyMax : Nat} (bs : List Byte) {r : Regs} (hd : r.phase ≠ .done) (he : r.phase ≠ .error) :
    Runs keyMax (bs.map .cbyte) r { r with ctr := bs.foldl shiftCounter r.ctr } (List.replicate bs.length 0x0000) := by
  induction bs generalizing r with
  | nil => exact Runs.nil keyMax r
  | cons b bs ih =>
    have hone : Runs keyMax [.cbyte b] r { r with ctr := shiftCounter r.ctr b } [0x0000] :=
      Runs.of_ok rfl (legality_cbyte_ok.mpr ⟨hd, he⟩) rfl
    exact hone.append (ih hd he)

theorem shiftCounter_ofNat (n : Nat) (b : Byte) :
    shiftCounter (BitVec.ofNat 64 n) b = BitVec.ofNat 64 (n * 256 + b.toNat) := by
  apply BitVec.eq_of_toNat_eq
  rw [shiftCounter_toNat, BitVec.toNat_ofNat, BitVec.toNat_ofNat]
  omega

/-- The last k + 1 bytes of `be64`: the byte of weight 256^k, then the last k (R11). -/
theorem be64_drop_succ (v : BitVec 64) {k : Nat} (hk : k < 8) :
    (be64 v).drop (8 - (k + 1)) = v.extractLsb' (8 * k) 8 :: (be64 v).drop (8 - k) := by
  interval_cases k <;> rfl

/-- Shifting in the last k bytes of v moves the counter up by k bytes and puts v mod 256^k below it. -/
theorem foldl_shiftCounter_be64_drop (v : BitVec 64) {k : Nat} (hk : k ≤ 8) (n : Nat) :
    ((be64 v).drop (8 - k)).foldl shiftCounter (BitVec.ofNat 64 n) =
      BitVec.ofNat 64 (n * 256 ^ k + v.toNat % 256 ^ k) := by
  induction k generalizing n with
  | zero => simp [Nat.mod_one, be64]
  | succ k ih =>
    have hbyte : (v.extractLsb' (8 * k) 8).toNat = v.toNat / 256 ^ k % 256 := by
      rw [BitVec.extractLsb'_toNat, Nat.shiftRight_eq_div_pow, Nat.pow_mul]
    rw [be64_drop_succ v hk, List.foldl_cons, shiftCounter_ofNat, ih (by omega), hbyte, Nat.mod_pow_succ]
    congr 1
    ring

/-! ### `CTR64` (R142) -/

theorem ctr64Cmds_eq_map (v : BitVec 64) : ctr64Cmds v = (be64 v).map .cbyte := rfl

/-- The last k commands of `CTR64 v` shift in the last k bytes of v. -/
theorem runs_ctr64_drop {keyMax k : Nat} (hk : k ≤ 8) (v : BitVec 64) {r : Regs} (hd : r.phase ≠ .done)
    (he : r.phase ≠ .error) :
    Runs keyMax ((ctr64Cmds v).drop (8 - k)) r
      { r with ctr := BitVec.ofNat 64 (r.ctr.toNat * 256 ^ k + v.toNat % 256 ^ k) } (List.replicate k 0x0000) := by
  have hlen : ((be64 v).drop (8 - k)).length = k := by rw [List.length_drop, be64_length]; omega
  have hctr := foldl_shiftCounter_be64_drop v hk r.ctr.toNat
  rw [BitVec.ofNat_toNat, BitVec.setWidth_eq] at hctr
  have hruns := runs_cbytes (keyMax := keyMax) ((be64 v).drop (8 - k)) hd he
  rwa [hlen, hctr, List.map_drop, ← ctr64Cmds_eq_map] at hruns

/-- All eight commands push out whatever `CTR` held. -/
theorem runs_ctr64 {keyMax : Nat} (v : BitVec 64) {r : Regs} (hd : r.phase ≠ .done) (he : r.phase ≠ .error) :
    Runs keyMax (ctr64Cmds v) r { r with ctr := v } (List.replicate 8 0x0000) := by
  have hctr : BitVec.ofNat 64 (r.ctr.toNat * 256 ^ 8 + v.toNat % 256 ^ 8) = v := by
    apply BitVec.eq_of_toNat_eq
    have := v.isLt
    rw [BitVec.toNat_ofNat]
    omega
  have hruns := runs_ctr64_drop (keyMax := keyMax) (le_refl 8) v hd he
  rwa [hctr] at hruns

/-- Settles O44: the whole load by `runs_ctr64`, the cut one by `runs_ctr64_drop`, where v is its last k bytes. -/
theorem eightCbytesLoadTheCounter : Obligations.EightCbytesLoadTheCounter := by
  unfold Obligations.EightCbytesLoadTheCounter
  intro s v hd he
  refine ⟨(runs_ctr64 v hd he).endsIn, fun k hk hv hzero => ?_⟩
  have hctr : BitVec.ofNat 64 (s.regs.ctr.toNat * 256 ^ k + v.toNat % 256 ^ k) = v := by
    rw [Nat.pow_mul] at hv
    rw [hzero, Nat.mod_eq_of_lt hv]
    simp
  have hruns := runs_ctr64_drop (keyMax := s.cfg.keyMax) hk v hd he
  rw [hctr] at hruns
  exact hruns.endsIn

end Sys2Proof.Machine
end

section
/-! SUPPORT. HMAC over the counter and the result window (R148, R149, R51): the four compressions of a digest, the command
`HMAC`, and what the three compute commands leave alone. -/

namespace Sys2Proof.Machine

open Sys2Proof

/-! ### The digest (R147, R148) -/

/-- The hash of one whole block and a tail that leaves room for the padding is two compressions (R102, R103). -/
theorem sha1_block_append {block tail : List Byte} (hblock : block.length = 64) (htail : tail.length ≤ 55) :
    sha1 (block ++ tail) =
      ser (compress (compress iv block)
        (tail ++ [0x80] ++ rep 0x00 (55 - tail.length) ++ be64 (BitVec.ofNat 64 (8 * (64 + tail.length))))) := by
  have hlen : (block ++ tail).length = 64 + tail.length := by rw [List.length_append, hblock]
  have hcount : (64 + tail.length) / 64 = 1 := by omega
  have hfirst : compressBlocks 1 iv (block ++ tail) = compress iv block := by
    rw [compressBlocks_append (by omega), compressBlocks_succ, compressBlocks_zero, List.take_of_length_le hblock.le]
  have hrest : (block ++ tail).drop (64 * 1) = tail := List.drop_left' hblock
  simp only [sha1, hlen, hcount, hfirst, hrest, finishHash, finalBlocks_of_le htail, List.foldl_cons, List.foldl_nil]

/-- Settles O40: the inner and the outer hash are each two compressions, over 64 + 8 and 64 + 20 bytes. -/
theorem hmacIsFourCompressions : Obligations.HmacIsFourCompressions := by
  unfold Obligations.HmacIsFourCompressions
  intro k0 c ih inner oh outer
  have hinner : sha1 (xor8 k0.toList ipad ++ be64 c) = ser inner := sha1_block_append (by simp) (by simp)
  have houter : sha1 (xor8 k0.toList opad ++ (ser inner).toList) = ser outer := by
    rw [sha1_block_append (by simp) (by simp), Vector.length_toList]
    rfl
  rw [hmacSha1, hinner, houter]

/-! ### The command (R149) -/

/-- Settles O19: the digest in `KEYED`, and the table's answers in the other phases. -/
theorem hmacMakesTheDigest : Obligations.HmacMakesTheDigest := by
  unfold Obligations.HmacMakesTheDigest
  have hwf : Instr.hmac.wellFormed = true := rfl
  refine ⟨by decide, fun s => ⟨fun hp => ?_, fun hp => ?_, fun hp => ?_⟩⟩
  · exact exec_eq_afterOk hwf (legality_hmac_ok.mpr hp) rfl
  · obtain (hp | hp | hp) | hp := hp <;> exact exec_eq_sequenceError hwf (by rw [hp]; rfl) (by simp [hp])
  · exact exec_eq_afterRefusal hwf (by rw [hp]; rfl)

/-! ### The three parts of the result window (R51) -/

theorem windowByte_of_lt {r : Regs} {a : Nat} (h : a < 20) : windowByte r a = r.dg.toList[a]? := by
  rw [windowByte, List.append_assoc, List.getElem?_append_left (by simpa using h)]

theorem windowByte_of_mid {r : Regs} {a : Nat} (hlo : 20 ≤ a) (hhi : a < 24) :
    windowByte r a = (be32 r.tr)[a - 20]? := by
  rw [windowByte, List.getElem?_append_left (by simpa using hhi), List.getElem?_append_right (by simpa using hlo),
    Vector.length_toList]

theorem windowByte_of_ge {r : Regs} {a : Nat} (h : 24 ≤ a) : windowByte r a = r.code.toList[a - 24]? := by
  rw [windowByte, List.getElem?_append_right (by simpa using h), List.length_append, Vector.length_toList, be32_length]

/-! ### What the compute commands leave alone -/

/-- Settles O30: each command's rule writes one of the three registers the window shows, so the window's other parts stay. -/
theorem computeCommandsFrame : Obligations.ComputeCommandsFrame := by
  unfold Obligations.ComputeCommandsFrame
  intro s t ht
  refine ⟨fun he => ?_, fun he => ?_, fun he => ?_⟩ <;> obtain ⟨-, d, hr⟩ := exec_of_phase_ne_error he ht
  · obtain ⟨hregs, -⟩ := Prod.mk.inj (Except.ok.inj hr)
    rw [← hregs]
    refine ⟨rfl, fun a ha => ?_⟩
    obtain hlt | hge := Nat.lt_or_ge a 24
    · simp only [windowByte_of_mid ha hlt]
    · simp only [windowByte_of_ge hge]
  · obtain ⟨hregs, -⟩ := Prod.mk.inj (Except.ok.inj hr)
    rw [← hregs]
    refine ⟨rfl, fun a ha => ?_⟩
    obtain hlt | hge := ha
    · simp only [windowByte_of_lt hlt]
    · simp only [windowByte_of_ge hge]
  · obtain ⟨-, hregs⟩ := reduceRule_eq_ok hr
    rw [hregs]
    refine ⟨rfl, fun a ha => ?_⟩
    obtain hlt | hge := ha
    · obtain hdg | htr := Nat.lt_or_ge a 20
      · simp only [windowByte_of_lt hdg]
      · simp only [windowByte_of_mid htr hlt]
    · simp only [windowByte_eq_none_iff.mpr hge]

end Sys2Proof.Machine
end

section
/-! SUPPORT. HOTP post-processing (R160 to R165): the value of a truncation, the digits of a number, the commands `TRUNC`
and `REDUCE`, and the digits in the result window. -/

namespace Sys2Proof.Machine

open Sys2Proof

/-! ### Dynamic truncation (R160) -/

/-- One more byte below a string of bits, as a number. -/
theorem append_byte_toNat {w : Nat} (x : BitVec w) (b : Byte) : (x ++ b).toNat = x.toNat * 256 + b.toNat := by
  rw [BitVec.toNat_append, ← Nat.shiftLeft_add_eq_or_of_lt b.isLt, Nat.shiftLeft_eq]

/-- The value of a big-endian word (R11). -/
theorem u32be_toNat (b0 b1 b2 b3 : Byte) :
    (u32be b0 b1 b2 b3).toNat = b0.toNat * 2 ^ 24 + b1.toNat * 2 ^ 16 + b2.toNat * 2 ^ 8 + b3.toNat := by
  have h : (b0 ++ b1 ++ b2 ++ b3 : BitVec (8 + 8 + 8 + 8)).toNat =
      ((b0.toNat * 256 + b1.toNat) * 256 + b2.toNat) * 256 + b3.toNat := by
    simp only [append_byte_toNat]
  rw [show (u32be b0 b1 b2 b3).toNat = _ from h]
  ring

/-- Clearing the top bit of the first byte clears that of the word. -/
theorem u32be_and_7F_toNat (b0 b1 b2 b3 : Byte) :
    (u32be (b0 &&& 0x7F) b1 b2 b3).toNat = (u32be b0 b1 b2 b3).toNat % 2 ^ 31 := by
  have hmask : (b0 &&& 0x7F).toNat = b0.toNat % 2 ^ 7 := by
    rw [BitVec.toNat_and]
    exact Nat.and_two_pow_sub_one_eq_mod _ 7
  have h1 := b1.isLt
  have h2 := b2.isLt
  have h3 := b3.isLt
  rw [u32be_toNat, u32be_toNat, hmask]
  omega

theorem truncOffset_eq_mod (d : Vector Byte 20) : truncOffset d = d[19].toNat % 16 := by
  rw [truncOffset, BitVec.toNat_and]
  exact Nat.and_two_pow_sub_one_eq_mod _ 4

/-- A truncation is the word at its offset, modulo 2^31. -/
theorem dynTrunc_toNat {d : Vector Byte 20} {o : Nat} (ho : truncOffset d = o) (h : o + 3 < 20) :
    (dynTrunc d).toNat = (u32be d[o] d[o + 1] d[o + 2] d[o + 3]).toNat % 2 ^ 31 := by
  subst ho
  exact u32be_and_7F_toNat _ _ _ _

theorem dynTrunc_toNat_lt (d : Vector Byte 20) : (dynTrunc d).toNat < 2 ^ 31 := by
  have ho := truncOffset_le d
  rw [dynTrunc_toNat rfl (by omega)]
  exact Nat.mod_lt _ (by decide)

/-- Settles O41: `dynTrunc_toNat` at the offset the low nibble of the last byte names. -/
theorem dynTruncIsTheMaskedWindow : Obligations.DynTruncIsTheMaskedWindow := by
  unfold Obligations.DynTruncIsTheMaskedWindow
  intro d o
  refine ⟨fun _ _ _ h3 => ?_, dynTrunc_toNat_lt d⟩
  rw [dynTrunc_toNat (truncOffset_eq_mod d) h3, u32be_toNat]

/-! ### The digits (R163) -/

theorem digit_toNat (r i : Nat) : (digit r i).toNat = 0x30 + r / 10 ^ (5 - i) % 10 := by
  rw [digit, BitVec.toNat_ofNat]
  omega

/-- A digit is the code of one of `0` to `9`. -/
theorem digit_ascii (r i : Nat) : 0x30 ≤ (digit r i).toNat ∧ (digit r i).toNat ≤ 0x39 := by
  rw [digit_toNat]
  omega

theorem digits_toList (r : Nat) : (digits r).toList = (List.range 6).map (digit r) := rfl

theorem digits_getElem (r : Nat) {i : Nat} (hi : i < 6) : (digits r)[i] = digit r i := by
  interval_cases i <;> rfl

/-- The decimal value of the six digits is the number they write, when it has no more than six. -/
theorem digits_value {r : Nat} (hr : r < 1000000) :
    (digits r).toList.foldl (fun n b => n * 10 + (b.toNat - 0x30)) 0 = r := by
  simp only [digits, Vector.toList_mk, List.foldl_cons, List.foldl_nil, digit_toNat, Nat.add_sub_cancel_left]
  omega

/-- Settles O42: each byte is a `digit`, and the digits have the value `digits_value` gives. -/
theorem digitsWriteTheNumber : Obligations.DigitsWriteTheNumber := by
  unfold Obligations.DigitsWriteTheNumber
  intro r hr
  refine ⟨fun i hi => ?_, fun b hb => ?_, digits_value hr⟩
  · rw [digits_getElem, digit_toNat]
  · rw [digits_toList, List.mem_map] at hb
    obtain ⟨i, -, rfl⟩ := hb
    exact digit_ascii r i

/-! ### The commands (R161, R164) -/

/-- Settles O20: the truncation in `DONE`, and the table's answers in the other phases. -/
theorem truncWritesTheTruncation : Obligations.TruncWritesTheTruncation := by
  unfold Obligations.TruncWritesTheTruncation
  have hwf : Instr.trunc.wellFormed = true := rfl
  refine ⟨by decide, fun s => ⟨fun hp => ?_, fun hp => ?_, fun hp => ?_⟩⟩
  · exact exec_eq_afterOk hwf (legality_trunc_ok.mpr hp) rfl
  · obtain (hp | hp | hp) | hp := hp <;> exact exec_eq_sequenceError hwf (by rw [hp]; rfl) (by simp [hp])
  · exact exec_eq_afterRefusal hwf (by rw [hp]; rfl)

theorem reduceRule_of_tv {r : Regs} (h : r.tv = true) :
    reduceRule r = .ok ({ r with code := digits (reduceCode r.tr), cv := true }, 0) :=
  if_pos h

theorem reduceRule_of_not_tv {r : Regs} (h : r.tv = false) : reduceRule r = .error .sequenceError := by
  simp [reduceRule, h]

/-- Settles O21: in `DONE` the rule with and without a truncated value, and the table's answers in the other phases. -/
theorem reduceWritesTheDigits : Obligations.ReduceWritesTheDigits := by
  unfold Obligations.ReduceWritesTheDigits
  have hwf : Instr.reduce.wellFormed = true := rfl
  refine ⟨by decide, fun s => ⟨fun hp htv => ?_, fun hp htv => ?_, fun hp => ?_, fun hp => ?_⟩⟩
  · refine ⟨digits (reduceCode s.regs.tr), ?_, fun i hi => ?_⟩
    · exact exec_eq_afterOk hwf (legality_reduce_ok.mpr hp) (reduceRule_of_tv htv)
    · rw [digits_getElem, digit_toNat, reduceCode]
  · exact exec_eq_afterFault hwf (legality_reduce_ok.mpr hp) (by simp [hp]) (reduceRule_of_not_tv htv)
  · obtain (hp | hp | hp) | hp := hp <;> exact exec_eq_sequenceError hwf (by rw [hp]; rfl) (by simp [hp])
  · exact exec_eq_afterRefusal hwf (by rw [hp]; rfl)

/-! ### The digits in the window (R165) -/

/-- A code marked valid is the digits of the reduced truncation: outside `DONE` no code is valid (R39). -/
theorem Regs.Inv.code_of_cv {keyMax : Nat} {r : Regs} (hi : r.Inv keyMax) (hcv : r.cv = true) :
    r.code = digits (reduceCode r.tr) := by
  have hp : r.phase = .done := by
    by_contra hne
    obtain ⟨-, -, -, -, hcv0⟩ := hi.notDone hne
    simp [hcv0] at hcv
  obtain ⟨-, -, -, -, hcode, -⟩ := hi.done hp
  exact hcode hcv

/-- Settles O43: by the invariant `CODE` holds digits, and the window shows them from byte 24 on. -/
theorem codeIsSixAsciiDigits : Obligations.CodeIsSixAsciiDigits := by
  unfold Obligations.CodeIsSixAsciiDigits
  rintro s ⟨-, hi⟩ hcv a hlo hhi
  have hlt : a - 24 < 6 := by omega
  refine ⟨digit (reduceCode s.regs.tr) (a - 24), ?_, digit_ascii _ _⟩
  rw [windowByte_of_ge hlo, hi.code_of_cv hcv, digits_toList, List.getElem?_map, List.getElem?_range hlt]
  rfl

end Sys2Proof.Machine
end

section
/-! SUPPORT. The transition table of `PHASE` (R177), waiting (R216), the control and read commands (R173 to R176). -/

namespace Sys2Proof.Machine

open Sys2Proof

/-! ### The transition table (R177) -/

/-- The rows of the transition table a command's own rule takes: from the registers `r` the command moves `PHASE` to the
phase named (R177). -/
inductive TableMove (keyMax : Nat) (r : Regs) : Instr → Phase → Prop where
  /-- `CLR`, in every phase. -/
  | clr : TableMove keyMax r .clr .idle
  /-- The first raw key byte. -/
  | kbyte (b : Byte) (hp : r.phase = .idle) (hroom : r.klen.toNat ≠ keyMax) : TableMove keyMax r (.kbyte b) .keyRaw
  /-- The first Base32 character. -/
  | kchar (c : Byte) (hp : r.phase = .idle) : TableMove keyMax r (.kchar c) .keyB32
  /-- `KEND` at the start of a group. -/
  | kend (hp : r.phase.loading) (hbn : r.bn = 0) : TableMove keyMax r .kend .keyed
  /-- `HMAC`. -/
  | hmac (hp : r.phase = .keyed) : TableMove keyMax r .hmac .done

/-- A rule that answers with another phase took a row of the table (R177). -/
theorem ruleOf_tableMove {keyMax : Nat} {i : Instr} {r r' : Regs} {d : Byte} (hl : legality i r.phase = .ok)
    (h : ruleOf keyMax i r = .ok (r', d)) (hne : r'.phase ≠ r.phase) : TableMove keyMax r i r'.phase := by
  cases i with
  | clr => cases h; exact .clr
  | rdst | rderr | cbyte _ | trunc => cases h; exact absurd rfl hne
  | kbyte b =>
    have hroom : r.klen.toNat ≠ keyMax := fun hfull => nomatch (kbyteRule_of_full hfull).symm.trans h
    obtain ⟨q, -, rfl⟩ := kbyteRule_eq_ok h
    exact .kbyte b ((legality_kbyte_ok.mp hl).resolve_right (Ne.symm hne)) hroom
  | kchar c =>
    obtain ⟨-, v, pads, -, ha⟩ := kcharRule_eq_ok h
    obtain ⟨hp', -⟩ := acceptChar_phase_data ha
    rw [hp'] at hne ⊢
    exact .kchar c ((legality_kchar_ok.mp hl).resolve_right (Ne.symm hne))
  | kend =>
    obtain ⟨hbn, rfl⟩ := kendRule_eq_ok h
    exact .kend (legality_kend_ok.mp hl) hbn
  | hmac => cases h; exact .hmac (legality_hmac_ok.mp hl)
  | reduce => obtain ⟨-, rfl⟩ := reduceRule_eq_ok h; exact absurd rfl hne
  | rdb idx => rw [rdbRule_eq_ok h] at hne; exact absurd rfl hne

/-- A raise that changes the phase is fault entry: in `ERROR` it would be a refusal (R190, R191). -/
theorem raiseFault_eq_afterFault_of_phase_ne {e : Exc} {s : State} (hne : (raiseFault e s).regs.phase ≠ s.regs.phase) :
    raiseFault e s = afterFault e.code s :=
  raiseFault_eq_afterFault e fun hp => hne ((raiseFault_phase e s).trans hp.symm)

/-- A command that changes the phase enters `ERROR` by a fault or takes a row of the table (R177). -/
theorem exec_phase_change {i : Instr} {s t : State} (h : exec i s = .next t) (hne : t.regs.phase ≠ s.regs.phase) :
    (∃ code, t = afterFault code s) ∨ TableMove s.cfg.keyMax s.regs i t.regs.phase := by
  obtain ⟨-, he⟩ | ⟨e, he⟩ | ⟨hl, r, d, hr, he⟩ := exec_cases i s <;> rw [he] at h <;> cases h
  · exact absurd rfl hne
  · exact .inl ⟨_, raiseFault_eq_afterFault_of_phase_ne hne⟩
  · exact .inr (ruleOf_tableMove hl hr hne)

/-- A step that changes the phase is a reset, a fault entry, or a command's row of the table (R177, R215). -/
theorem step_phase_change {s t : State} (h : step s = .next t) (hne : t.regs.phase ≠ s.regs.phase) :
    (∃ rest, s.inbox = .reset :: rest ∧ t.regs.phase = .idle) ∨
    ∃ w rest, s.inbox = .command w :: rest ∧ ((∃ code, t = afterFault code { s with inbox := rest }) ∨
      ∃ i, encode i = w ∧ TableMove s.cfg.keyMax s.regs i t.regs.phase) := by
  obtain ⟨-, he⟩ | ⟨rest, hs, he⟩ | ⟨w, rest, i, hs, hd, he⟩ | ⟨w, rest, e, hs, -, he⟩ := step_cases s <;> rw [he] at h
  · cases h
    exact absurd rfl hne
  · cases h
    exact .inl ⟨rest, hs, rfl⟩
  · obtain ⟨hw, -⟩ := encodeOfDecodeIsTheWord w i hd
    exact .inr ⟨w, rest, hs, (exec_phase_change h hne).imp_right fun hmove => ⟨i, hw, hmove⟩⟩
  · cases h
    exact .inr ⟨w, rest, hs, .inl ⟨_, raiseFault_eq_afterFault_of_phase_ne hne⟩⟩

/-- Settles O33: the rows of R177, each with the word of its command. -/
theorem phaseChangesOnlyByTheTable : Obligations.PhaseChangesOnlyByTheTable := by
  unfold Obligations.PhaseChangesOnlyByTheTable
  intro s t h hne
  obtain ⟨rest, hs, hidle⟩ | ⟨w, rest, hs, ⟨code, rfl⟩ | ⟨i, rfl, hmove⟩⟩ := step_phase_change h hne
  · exact ⟨.reset, rest, hs, .inl ⟨hidle, .inl rfl⟩⟩
  · exact ⟨.command w, rest, hs, .inr ⟨w, rfl, .inr (.inr (.inr (.inr ⟨rfl, code, rfl⟩)))⟩⟩
  · refine ⟨.command (encode i), rest, hs, ?_⟩
    generalize t.regs.phase = p at hmove
    cases hmove with
    | clr => exact .inl ⟨rfl, .inr rfl⟩
    | kbyte b hp hroom => exact .inr ⟨_, rfl, .inl ⟨rfl, hp, opField_encode _, hroom⟩⟩
    | kchar c hp => exact .inr ⟨_, rfl, .inr (.inl ⟨rfl, hp, opField_encode _⟩)⟩
    | kend hp hbn => exact .inr ⟨_, rfl, .inr (.inr (.inl ⟨rfl, hp, rfl, hbn⟩))⟩
    | hmac hp => exact .inr ⟨_, rfl, .inr (.inr (.inr (.inl ⟨rfl, hp, rfl⟩)))⟩

/-! ### Waiting (R216) -/

/-- Settles O6: induction on the number of steps, each of which is the step's case of the empty inbox. -/
theorem waitingHasNoEffect : Obligations.WaitingHasNoEffect := by
  unfold Obligations.WaitingHasNoEffect
  intro n s hs
  have hstep : step s = .next s := by simp [step, hs]
  induction n with
  | zero => rfl
  | succ n ih => rw [runSteps_succ hstep, ih]

/-! ### `CLR` (R173) -/

/-- The table lets `CLR` run in every phase (R78). -/
@[simp] theorem legality_clr (p : Phase) : legality .clr p = .ok := by cases p <;> rfl

/-- Settles O9: the table lets `CLR` run everywhere, and its rule answers `S0`. -/
theorem clrGivesTheZeroState : Obligations.ClrGivesTheZeroState := by
  unfold Obligations.ClrGivesTheZeroState
  exact ⟨by decide, fun s => exec_eq_afterOk rfl (legality_clr _) rfl⟩

/-! ### `RDST` (R174) -/

theorem bit_toNat (f : Bool) : (bit f).toNat = if f then 1 else 0 := by cases f <;> rfl

/-- The three parts of the status byte do not overlap (R24). -/
theorem statusByte_toNat (r : Regs) :
    (statusByte r).toNat = r.phase.code.toNat + 8 * (if r.tv then 1 else 0) + 16 * (if r.cv then 1 else 0) := by
  have hcode := r.phase.code.isLt
  simp only [statusByte, BitVec.toNat_add, BitVec.toNat_mul, BitVec.toNat_setWidth, bit_toNat,
    BitVec.ofNat_eq_ofNat, BitVec.toNat_ofNat]
  split <;> split <;> omega

/-- `CODE` is valid only beside a valid `TR`, and both only in `DONE` (R39, items 8 and 9). -/
theorem Regs.Inv.flags {keyMax : Nat} {r : Regs} (hi : r.Inv keyMax) :
    (r.tv = false ∧ r.cv = false) ∨ (r.phase = .done ∧ r.tv = true) := by
  by_cases hp : r.phase = .done
  · obtain ⟨-, -, hcv, -⟩ := hi.done hp
    cases htv : r.tv with
    | true => exact .inr ⟨hp, rfl⟩
    | false => exact .inl ⟨rfl, Bool.eq_false_of_not_eq_true fun h => by simp [hcv h] at htv⟩
  · obtain ⟨-, -, -, htv, hcv⟩ := hi.notDone hp
    exact .inl ⟨htv, hcv⟩

/-- The status bytes a run can show (R174). -/
theorem Regs.Inv.statusByte_mem {keyMax : Nat} {r : Regs} (hi : r.Inv keyMax) :
    statusByte r ∈ ([0x00, 0x01, 0x02, 0x03, 0x04, 0x0C, 0x1C, 0x07] : List Byte) := by
  unfold statusByte
  obtain ⟨htv, hcv⟩ | ⟨hp, htv⟩ := hi.flags
  · rw [htv, hcv]
    cases r.phase <;> decide
  · rw [hp, htv]
    cases r.cv <;> decide

/-- Settles O10: `RDST` answers the status byte, part by part, and the invariant leaves eight of its values. -/
theorem rdstAnswersTheStatus : Obligations.RdstAnswersTheStatus := by
  unfold Obligations.RdstAnswersTheStatus
  refine ⟨by decide, fun s => ⟨statusByte s.regs, exec_rdst s, ?_, fun hi => hi.2.statusByte_mem⟩⟩
  rw [statusByte_toNat]
  cases s.regs.phase <;> rfl

/-! ### `RDERR` (R175) -/

/-- Settles O11: `RDERR` answers `ERRC`, which the invariant ties to the phase. -/
theorem rderrAnswersTheCode : Obligations.RderrAnswersTheCode := by
  unfold Obligations.RderrAnswersTheCode
  refine ⟨by decide, fun s => ⟨exec_rderr s, fun ⟨_, hi⟩ => ⟨hi.errc_zero, fun hp => ?_⟩⟩⟩
  obtain h0 | hcode := hi.errc_codes
  · exact absurd h0 (hi.error_iff.mp hp)
  · simpa using hcode

/-! ### `RDB` (R176) -/

/-- Byte i of `be32`, the first the most significant (R11). -/
theorem be32_getElem_toNat (v : Word) {i : Nat} (hi : i < (be32 v).length) :
    (be32 v)[i].toNat = v.toNat / 2 ^ (24 - 8 * i) % 256 := by
  have hlen : i < 4 := hi
  simp only [be32]
  interval_cases i <;> simp [BitVec.extractLsb'_toNat, Nat.shiftRight_eq_div_pow]

theorem windowValid_of_lt {r : Regs} {a : Nat} (h : a < 20) : windowValid r a = true := by
  simp [windowValid, Nat.le_of_lt_succ h]

theorem windowValid_of_mid {r : Regs} {a : Nat} (hlo : 20 ≤ a) (hhi : a ≤ 23) : windowValid r a = r.tv := by
  simp [windowValid, hhi, show ¬ a ≤ 19 by omega]

theorem windowValid_of_ge {r : Regs} {a : Nat} (hlo : 24 ≤ a) (hhi : a ≤ 29) : windowValid r a = r.cv := by
  simp [windowValid, hhi, show ¬ a ≤ 19 by omega, show ¬ a ≤ 23 by omega]

theorem rdbRule_of_valid {idx : BitVec 5} {r : Regs} {data : Byte} (hv : windowValid r idx.toNat = true)
    (hb : windowByte r idx.toNat = some data) : rdbRule idx r = .ok (r, data) := by
  simp [rdbRule, hv, hb]

theorem rdbRule_of_not_valid {idx : BitVec 5} {r : Regs} (hv : windowValid r idx.toNat = false) :
    rdbRule idx r = .error .sequenceError := by
  simp [rdbRule, hv]

/-- `RDB` of a byte that has been produced (R176). -/
theorem exec_rdb_of_valid {idx : BitVec 5} {s : State} {data : Byte} (hwf : (Instr.rdb idx).wellFormed = true)
    (hp : s.regs.phase = .done) (hv : windowValid s.regs idx.toNat = true)
    (hb : windowByte s.regs idx.toNat = some data) : exec (.rdb idx) s = .next (afterOk s.regs data s) :=
  exec_eq_afterOk hwf (legality_rdb_ok.mpr hp) (rdbRule_of_valid hv hb)

/-- `RDB` of a byte that has not been produced (R176). -/
theorem exec_rdb_of_not_valid {idx : BitVec 5} {s : State} (hwf : (Instr.rdb idx).wellFormed = true)
    (hp : s.regs.phase = .done) (hv : windowValid s.regs idx.toNat = false) :
    exec (.rdb idx) s = .next (afterFault 0x11 s) :=
  exec_eq_afterFault hwf (legality_rdb_ok.mpr hp) (by simp [hp]) (rdbRule_of_not_valid hv)

/-- Settles O22: in `DONE` the three parts of the window with their flags, elsewhere the table's answers. -/
theorem rdbReadsTheWindow : Obligations.RdbReadsTheWindow := by
  unfold Obligations.RdbReadsTheWindow
  intro s idx hidx
  have hwf : (Instr.rdb idx).wellFormed = true := by simpa [Instr.wellFormed] using hidx
  refine ⟨?_, fun hp => ⟨fun h => ?_, fun hlo hhi htv => ?_, fun hlo hhi htv => ?_, fun hlo hcv h => ?_,
    fun hlo hcv => ?_⟩, fun hp => ?_, fun hp => ?_⟩
  · simp only [encode_toNat, opcode, lowByte, BitVec.toNat_setWidth, BitVec.ofNat_eq_ofNat, BitVec.toNat_ofNat]
    omega
  · refine exec_rdb_of_valid hwf hp (windowValid_of_lt h) ?_
    rw [windowByte_of_lt h]
    simp [h]
  · have hmid : idx.toNat - 20 < (be32 s.regs.tr).length := by rw [be32_length]; omega
    refine ⟨(be32 s.regs.tr)[idx.toNat - 20], ?_, exec_rdb_of_valid hwf hp ((windowValid_of_mid hlo hhi).trans htv) ?_⟩
    · rw [be32_getElem_toNat, show 24 - 8 * (idx.toNat - 20) = 8 * (23 - idx.toNat) by omega]
    · rw [windowByte_of_mid hlo (Nat.lt_succ_of_le hhi), List.getElem?_eq_getElem hmid]
  · exact exec_rdb_of_not_valid hwf hp ((windowValid_of_mid hlo hhi).trans htv)
  · refine exec_rdb_of_valid hwf hp ((windowValid_of_ge hlo hidx).trans hcv) ?_
    rw [windowByte_of_ge hlo]
    simp [h]
  · exact exec_rdb_of_not_valid hwf hp ((windowValid_of_ge hlo hidx).trans hcv)
  · obtain (hp | hp | hp) | hp := hp <;> exact exec_eq_sequenceError hwf (by rw [hp]; rfl) (by simp [hp])
  · exact exec_eq_afterRefusal hwf (by rw [hp]; rfl)

end Sys2Proof.Machine
end

section
/-! SUPPORT. The `HOTP` sequence followed by `RDERR` (R91, R198): what a host makes of its responses, for a text that
decodes and for one that does not. -/

namespace Sys2Proof.Machine

open Sys2Proof

/-! ### What a host reads in the responses (R72, R198) -/

@[simp] theorem rspData_okRsp (d : Byte) : rspData (okRsp d) = d := by
  apply BitVec.eq_of_toNat_eq
  have := d.isLt
  rw [rspData, BitVec.extractLsb'_toNat, okRsp_toNat, Nat.shiftRight_zero]
  omega

@[simp] theorem rspFault_okRsp (d : Byte) : rspFault (okRsp d) = false := by
  simp [rspFault, okRsp]

theorem rspFault_faultRsp : rspFault faultRsp = true := by decide

/-- Responses without a fault that end in six bytes give these bytes (R198). -/
theorem derivationResult_of_ok {bs : List Byte} (h6 : bs.length = 6) (n : Nat) (errc : Byte) :
    derivationResult (List.replicate n (okRsp 0) ++ bs.map okRsp) errc = some (.ok bs) := by
  have hnone : (List.replicate n (okRsp 0) ++ bs.map okRsp).any rspFault = false := by
    simp only [List.any_append, List.any_replicate, List.any_map, Function.comp_def, rspFault_okRsp]
    simp
  have hlast : (List.replicate n (okRsp 0) ++ bs.map okRsp).length - 6 = (List.replicate n (okRsp 0)).length := by
    simp [h6]
  rw [derivationResult, hnone, if_neg Bool.false_ne_true, hlast, List.drop_left, List.map_map]
  simp [Function.comp_def]

/-- Responses with a fault give `InvalidKey` when that is the code (R198). -/
theorem derivationResult_of_fault {rsps : List RspWord} (h : faultRsp ∈ rsps) :
    derivationResult rsps Exc.invalidKey.code = some (.error .invalidKey) := by
  rw [derivationResult, if_pos (List.any_eq_true.mpr ⟨faultRsp, h, rspFault_faultRsp⟩), if_pos rfl]

/-! ### The parts of the sequence -/

theorem runs_clr (keyMax : Nat) (r : Regs) : Runs keyMax [.clr] r Regs.zero [0x0000] :=
  Runs.of_ok rfl (legality_clr _) rfl

/-- The registers `CLR` leaves stand at the start of a text. -/
theorem zero_inGroup : Regs.zero.InGroup 0 [] [] := (zero_inv 0).idle_inGroup rfl

/-- From `S0` the characters of a text that decodes and `KEND` load its key (R125). -/
theorem runs_keyB32 {keyMax : Nat} (hk : keyMax < 2 ^ 64) {text k : List Byte} (hdec : b32Decode text = some k)
    (hle : k.length ≤ keyMax) :
    Runs keyMax (keyB32Cmds text) Regs.zero { Regs.zero with phase := .keyed, k0 := normKey k }
      (List.replicate (text.length + 1) 0x0000) := by
  obtain ⟨q, hruns, hq, hbn, hqp⟩ := runs_text hk text zero_inGroup hdec (by simpa using hle)
  rw [List.replicate_succ']
  exact hruns.append (runs_kend hq hbn hqp)

/-- The registers a whole derivation leaves: the digest `d`, what is computed from it, and the counter `v` (R226). -/
def Regs.derived (d : Vector Byte 20) (v : BitVec 64) : Regs :=
  { Regs.zero with
    phase := .done, dg := d, tr := dynTrunc d, code := digits (reduceCode (dynTrunc d)), tv := true, cv := true, ctr := v }

/-- `TRUNC` and `REDUCE` on a digest (R161, R164). -/
theorem runs_post (keyMax : Nat) (d : Vector Byte 20) (v : BitVec 64) :
    Runs keyMax [.trunc, .reduce] { Regs.zero with phase := .done, dg := d, ctr := v } (Regs.derived d v)
      [0x0000, 0x0000] := by
  have htrunc : Runs keyMax [.trunc] { Regs.zero with phase := .done, dg := d, ctr := v }
      { Regs.zero with phase := .done, dg := d, tr := dynTrunc d, tv := true, ctr := v } [okRsp 0] :=
    Runs.of_ok rfl (legality_trunc_ok.mpr rfl) rfl
  exact htrunc.append (Runs.of_ok rfl (legality_reduce_ok.mpr rfl) (reduceRule_of_tv rfl))

/-- `HMAC`, `TRUNC`, `REDUCE` on a loaded key and counter (R149). -/
theorem runs_compute (keyMax : Nat) (k0 : Vector Byte 64) (v : BitVec 64) :
    Runs keyMax [.hmac, .trunc, .reduce] { Regs.zero with phase := .keyed, k0 := k0, ctr := v }
      (Regs.derived (hmacSha1 k0 (be64 v)) v) [0x0000, 0x0000, 0x0000] := by
  have hhmac : Runs keyMax [.hmac] { Regs.zero with phase := .keyed, k0 := k0, ctr := v }
      { Regs.zero with phase := .done, dg := hmacSha1 k0 (be64 v), ctr := v } [okRsp 0] :=
    Runs.of_ok rfl (legality_hmac_ok.mpr rfl) rfl
  exact hhmac.append (runs_post keyMax _ v)

/-- From every state the sequence up to `REDUCE` derives the code of the text's key and the counter (R226). -/
theorem runs_derivation {keyMax : Nat} (hk : keyMax < 2 ^ 64) {text k : List Byte} (hdec : b32Decode text = some k)
    (hle : k.length ≤ keyMax) (v : BitVec 64) (r : Regs) :
    Runs keyMax ([.clr] ++ keyB32Cmds text ++ ctr64Cmds v ++ [.hmac, .trunc, .reduce]) r
      (Regs.derived (hmacSha1 (normKey k) (be64 v)) v) (List.replicate (text.length + 13) 0x0000) := by
  have hkey := (runs_clr keyMax r).append (runs_keyB32 hk hdec hle)
  have hruns := (hkey.append (runs_ctr64 v (by simp) (by simp))).append (runs_compute keyMax (normKey k) v)
  have hcount : List.replicate (text.length + 13) (0x0000 : RspWord) =
      [0x0000] ++ List.replicate (text.length + 1) 0x0000 ++ List.replicate 8 0x0000 ++ [0x0000, 0x0000, 0x0000] := by
    rw [show text.length + 13 = 1 + (text.length + 1) + 8 + 3 by omega, List.replicate_add, List.replicate_add,
      List.replicate_add]
    rfl
  rwa [hcount]

theorem readCmds_succ (first n : Nat) :
    readCmds first (n + 1) = readCmds first n ++ [.rdb (BitVec.ofNat 5 (first + n))] := by
  simp [readCmds, List.range_succ]

/-- Reads from window byte 24 on answer the bytes of a valid `CODE`, and change nothing (R51, R176). -/
theorem runs_readCode {keyMax n : Nat} {r : Regs} (hp : r.phase = .done) (hcv : r.cv = true) (hn : n ≤ 6) :
    Runs keyMax (readCmds 24 n) r r ((r.code.toList.take n).map okRsp) := by
  induction n with
  | zero => exact Runs.nil keyMax r
  | succ n ih =>
    have hlt : n < r.code.toList.length := by simpa using hn
    have hidx : (BitVec.ofNat 5 (24 + n)).toNat = 24 + n := by rw [BitVec.toNat_ofNat]; omega
    have hbyte : windowByte r (24 + n) = some r.code.toList[n] := by
      rw [windowByte_of_ge (Nat.le_add_right _ _), Nat.add_sub_cancel_left, List.getElem?_eq_getElem hlt]
    have hrule : rdbRule (BitVec.ofNat 5 (24 + n)) r = .ok (r, r.code.toList[n]) := by
      refine rdbRule_of_valid ?_ (by rwa [hidx])
      rw [hidx, windowValid_of_ge (by omega) (by omega), hcv]
    have hwf : (Instr.rdb (BitVec.ofNat 5 (24 + n))).wellFormed = true := by
      simp only [Instr.wellFormed, hidx, decide_eq_true_eq]
      omega
    have hone : Runs keyMax [.rdb (BitVec.ofNat 5 (24 + n))] r r [okRsp r.code.toList[n]] :=
      Runs.of_ok hwf (legality_rdb_ok.mpr hp) hrule
    rw [readCmds_succ, List.take_succ_eq_append_getElem hlt, List.map_append]
    exact (ih (by omega)).append hone

/-! ### The whole sequence -/

/-- `HOTP` of a text that decodes: every command answers 0x0000, and the last six the digits of the code. -/
theorem runs_hotp_of_decodes {keyMax : Nat} (hk : keyMax < 2 ^ 64) {text k : List Byte} (hdec : b32Decode text = some k)
    (hle : k.length ≤ keyMax) (v : BitVec 64) (r : Regs) :
    Runs keyMax (hotpCmds text v) r (Regs.derived (hmacSha1 (normKey k) (be64 v)) v)
      (List.replicate (text.length + 13) 0x0000 ++
        (digits (reduceCode (dynTrunc (hmacSha1 (normKey k) (be64 v))))).toList.map okRsp) :=
  (runs_derivation hk hdec hle v r).append (runs_readCode rfl rfl le_rfl)

/-- What `HOTP` issues after the text is refused in `ERROR` (R191). -/
theorem runs_afterKey_of_error {keyMax : Nat} {r : Regs} (hp : r.phase = .error) (v : BitVec 64) :
    Runs keyMax (ctr64Cmds v ++ [.hmac, .trunc, .reduce] ++ rdCodeCmds) r r (List.replicate 17 faultRsp) := by
  refine Runs.of_error hp fun i hi => ?_
  simp only [ctr64Cmds_eq_map, rdCodeCmds, readCmds, List.mem_append, List.mem_map, List.mem_cons, List.not_mem_nil,
    or_false, List.mem_range] at hi
  obtain (⟨b, -, rfl⟩ | rfl | rfl | rfl) | ⟨n, hn, rfl⟩ := hi
  case inr =>
    refine ⟨?_, by simp⟩
    simp only [Instr.wellFormed, BitVec.toNat_ofNat, decide_eq_true_eq]
    omega
  all_goals exact ⟨rfl, by simp⟩

/-- `HOTP` of a text that does not decode and whose complete groups fit below `KEYMAX`: it ends in `ERROR` with
`InvalidKey`, some response being a fault (log entry 9). -/
theorem runs_hotp_of_rejected {keyMax : Nat} (hk : keyMax < 2 ^ 64) {text : List Byte} (hdec : b32Decode text = none)
    (hle : text.length / 8 * 5 ≤ keyMax) (v : BitVec 64) (r : Regs) :
    ∃ rsps, Runs keyMax (hotpCmds text v) r (faultRegs .invalidKey) rsps ∧ rsps.length = text.length + 19 ∧
      faultRsp ∈ rsps := by
  obtain ⟨m, hm, hkey⟩ := rejects_text hk text zero_inGroup hdec (by simpa using hle)
  have hruns := ((runs_clr keyMax r).append hkey).append (runs_afterKey_of_error (faultRegs_phase _) v)
  have hcmds : hotpCmds text v =
      [.clr] ++ keyB32Cmds text ++ (ctr64Cmds v ++ [.hmac, .trunc, .reduce] ++ rdCodeCmds) := by
    simp [hotpCmds]
  rw [← hcmds] at hruns
  refine ⟨_, hruns, ?_, ?_⟩
  · simp only [List.length_append, List.length_replicate, List.length_singleton]
    omega
  · exact List.mem_append_right _ (List.mem_replicate.mpr ⟨by decide, rfl⟩)

/-- A sequence, then `RDERR`, whose response is the code the sequence left (R175). -/
theorem Runs.then_rderr {is : List Instr} {s : State} {q : Regs} {rsps : List RspWord}
    (h : Runs s.cfg.keyMax is s.regs q rsps) :
    ∃ t, runCmds (is ++ [.rderr]) s = .next t ∧ t.outbox = s.outbox ++ rsps ++ [okRsp q.errc] := by
  have hrderr : Runs s.cfg.keyMax [.rderr] q q [okRsp q.errc] := Runs.of_ok rfl (legality_rderr _) rfl
  exact ⟨_, (h.append hrderr).endsIn, (List.append_assoc _ _ _).symm⟩

/-- Settles O49: the sequence of a text that decodes by `runs_hotp_of_decodes`, of any other by `runs_hotp_of_rejected`. -/
theorem hotpGivesTheCodeOrInvalidKey : Obligations.HotpGivesTheCodeOrInvalidKey := by
  unfold Obligations.HotpGivesTheCodeOrInvalidKey
  rintro s text v ⟨-, hmax⟩ hfits hrejects
  have hk : s.cfg.keyMax < 2 ^ 64 := by omega
  cases hdec : b32Decode text with
  | some k =>
    have hruns := runs_hotp_of_decodes hk hdec (hfits k hdec) v s.regs
    obtain ⟨t, ht, hout⟩ := hruns.then_rderr
    exact ⟨t, _, _, ht, hout, by simp, derivationResult_of_ok Vector.length_toList _ _⟩
  | none =>
    obtain ⟨rsps, hruns, hlen, hfault⟩ := runs_hotp_of_rejected hk hdec (hrejects hdec) v s.regs
    obtain ⟨t, ht, hout⟩ := hruns.then_rderr
    refine ⟨t, rsps, _, ht, hout, hlen, ?_⟩
    rw [rspData_okRsp]
    exact derivationResult_of_fault hfault

end Sys2Proof.Machine
end

section
/-! SUPPORT. The faults of key loading (R186, R189, R192): when a rule raises `InvalidKey` or `KeyOverflow`, and the
commands that raise the one or the other. -/

namespace Sys2Proof.Machine

open Sys2Proof

/-! ### Pushes that do not fit (R189) -/

/-- A byte too many is the only way pushes raise. -/
theorem keyPushAll_error {keyMax : Nat} {bs : List Byte} {r : Regs} {e : Exc} (h : keyPushAll keyMax bs r = .error e) :
    e = .keyOverflow := by
  induction bs generalizing r with
  | nil => cases h
  | cons b bs ih =>
    cases hp : keyPush keyMax b r with
    | error e' =>
      simp only [keyPushAll, hp] at h
      cases h
      exact (keyPush_error hp).1
    | ok q => exact ih ((keyPushAll_cons hp).symm.trans h)

/-- Pushes that would end above `KEYMAX` raise, whatever the key registers hold (R117). -/
theorem keyPushAll_of_gt {keyMax : Nat} {bs : List Byte} {r : Regs} (hk : keyMax < 2 ^ 64) (hle : r.klen.toNat ≤ keyMax)
    (hgt : keyMax < r.klen.toNat + bs.length) : keyPushAll keyMax bs r = .error .keyOverflow := by
  induction bs generalizing r with
  | nil => exact absurd hle (by simpa using hgt)
  | cons b bs ih =>
    rw [List.length_cons] at hgt
    cases hp : keyPush keyMax b r with
    | error e =>
      obtain ⟨rfl, -⟩ := keyPush_error hp
      simp [keyPushAll, hp]
    | ok q =>
      obtain ⟨hklen, hlt⟩ := keyPush_klen_toNat hk hle hp
      exact (keyPushAll_cons hp).trans (ih (by omega) (by omega))

/-! ### The rule of `KCHAR` (R122) -/

theorem emitGroup_of_overflow {keyMax pads n : Nat} {acc : BitVec 40} {r : Regs} (hn : nBytes pads = some n)
    (h : keyPushAll keyMax ((groupBytes acc).take n) r = .error .keyOverflow) :
    emitGroup keyMax acc pads r = .error .keyOverflow := by
  simp [emitGroup, hn, h]

/-- Only the pad count makes a complete group invalid; a push raises `KeyOverflow`. -/
theorem emitGroup_eq_invalidKey_iff {keyMax pads : Nat} {acc : BitVec 40} {r : Regs} :
    emitGroup keyMax acc pads r = .error .invalidKey ↔ nBytes pads = none := by
  refine ⟨fun h => ?_, fun hn => emitGroup_of_none hn acc r⟩
  cases hn : nBytes pads with
  | none => rfl
  | some n =>
    simp only [emitGroup, hn] at h
    cases hp : keyPushAll keyMax ((groupBytes acc).take n) r with
    | ok q => simp [hp] at h
    | error e =>
      rw [keyPushAll_error hp] at hp
      simp [hp] at h

/-- The pad counts no complete group may have (R120). -/
theorem nBytes_of_mem_illegal {pads : Nat} (h : pads ∈ [2, 5, 7, 8]) : nBytes pads = none := by
  simp only [List.mem_cons, List.not_mem_nil, or_false] at h
  obtain rfl | rfl | rfl | rfl := h <;> rfl

/-- One more pad character makes the count illegal exactly at 2, 5, 7 and 8 (R120). -/
theorem nBytes_bpad_succ_eq_none_iff (bpad : BitVec 3) :
    nBytes (bpad.toNat + 1) = none ↔ bpad.toNat + 1 ∈ [2, 5, 7, 8] := by
  revert bpad
  decide

/-- `BN` counts to seven: a character that is not before the eighth is the eighth (R30). -/
theorem bn_eq_seven_iff {r : Regs} : r.bn = 7 ↔ ¬ r.bn.toNat < 7 := by
  have hlt := r.bn.isLt
  rw [BitVec.toNat_eq, show (7 : BitVec 3).toNat = 7 from rfl]
  omega

/-- An accepted character makes a group invalid exactly when it completes one with an illegal pad count. -/
theorem acceptChar_eq_invalidKey_iff {keyMax pads : Nat} {v : BitVec 5} {r : Regs} :
    acceptChar keyMax v pads r = .error .invalidKey ↔ r.bn = 7 ∧ nBytes pads = none := by
  by_cases hbn : r.bn.toNat < 7
  · rw [acceptChar_of_lt hbn]
    exact iff_of_false (by simp) fun h => bn_eq_seven_iff.mp h.1 hbn
  · rw [acceptChar_of_ge hbn, emitGroup_eq_invalidKey_iff, bn_eq_seven_iff, and_iff_right hbn]

/-- A data character after a pad of its group raises `InvalidKey` (R122, R186). -/
theorem kcharRule_of_val_after_pad {keyMax : Nat} {c : Byte} {v : BitVec 5} {r : Regs} (hbend : r.bend = false)
    (hv : b32Val c = some v) (hpad : r.bpad ≠ 0) : kcharRule keyMax c r = .error .invalidKey := by
  have hc : c ≠ padChar := by
    rintro rfl
    simp [b32Val_padChar] at hv
  rw [kcharRule, if_neg (by simp [hbend]), if_neg hc, hv]
  exact if_pos hpad

/-- `KCHAR` raises `InvalidKey` in the four situations that are its own, of the five of R186. -/
theorem kcharRule_eq_invalidKey_iff {keyMax : Nat} {c : Byte} {r : Regs} :
    kcharRule keyMax c r = .error .invalidKey ↔
      (c ≠ padChar ∧ b32Val c = none) ∨ (b32Val c ≠ none ∧ 0 < r.bpad.toNat) ∨ r.bend = true ∨
        (r.bn = 7 ∧ c = padChar ∧ r.bpad.toNat + 1 ∈ [2, 5, 7, 8]) := by
  by_cases hbend : r.bend = true
  · simp [kcharRule_of_bend hbend, hbend]
  rw [Bool.not_eq_true] at hbend
  by_cases hc : c = padChar
  · subst hc
    rw [kcharRule_of_pad hbend, acceptChar_eq_invalidKey_iff, nBytes_bpad_succ_eq_none_iff]
    simp [b32Val_padChar, hbend]
  cases hv : b32Val c with
  | none => simp [kcharRule, hbend, hc, hv]
  | some v =>
    by_cases hpad : r.bpad = 0
    · rw [kcharRule_of_val hbend hv hpad, acceptChar_eq_invalidKey_iff]
      simp [hbend, hc, hpad, nBytes]
    · have hpos : 0 < r.bpad.toNat := Nat.pos_of_ne_zero fun h => hpad (BitVec.eq_of_toNat_eq h)
      simp [kcharRule_of_val_after_pad hbend hv hpad, hpos]

/-- The eighth character of a group, pad or data, closes it with the pad count `pads` then in it (R122). -/
theorem kcharRule_of_eighth_accepted {keyMax pads : Nat} {c : Byte} {r : Regs} (hbend : r.bend = false) (hbn : r.bn = 7)
    (hc : (c = padChar ∧ pads = r.bpad.toNat + 1) ∨ ((∃ v, b32Val c = some v) ∧ r.bpad = 0 ∧ pads = 0)) :
    ∃ acc, kcharRule keyMax c r = emitGroup keyMax acc pads r := by
  have h7 := bn_eq_seven_iff.mp hbn
  obtain ⟨rfl, rfl⟩ | ⟨⟨v, hv⟩, hpad, rfl⟩ := hc
  · exact ⟨_, (kcharRule_of_pad hbend).trans (acceptChar_of_ge h7)⟩
  · exact ⟨_, (kcharRule_of_val hbend hv hpad).trans (acceptChar_of_ge h7)⟩

/-- Settles O15: the legality table first, then the eighth character's pad count, then the pushes. -/
theorem kcharFaultsInOrder : Obligations.KcharFaultsInOrder := by
  unfold Obligations.KcharFaultsInOrder
  intro s c
  have hwf : (Instr.kchar c).wellFormed = true := rfl
  refine ⟨fun hp => ?_, fun hp => ?_, fun pads n hcfg hp hbend hbn hc hle hgt => ?_⟩
  · obtain hp | hp | hp := hp <;> exact exec_eq_sequenceError hwf (by rw [hp]; rfl) (by simp [hp])
  · exact exec_eq_afterRefusal hwf (by rw [hp]; rfl)
  obtain ⟨-, hmax⟩ := hcfg
  obtain ⟨acc, hrule⟩ := kcharRule_of_eighth_accepted (keyMax := s.cfg.keyMax) hbend hbn hc
  have hraise {e : Exc} (h : emitGroup s.cfg.keyMax acc pads s.regs = .error e) :
      exec (.kchar c) s = .next (afterFault e.code s) :=
    exec_eq_afterFault hwf (legality_kchar_ok.mpr hp) (Phase.ne_error_of_kchar hp) (hrule.trans h)
  refine ⟨fun hmem => ?_, fun hmem => ?_⟩
  · have hn := nBytes_of_mem hmem
    exact hraise (emitGroup_of_overflow hn (keyPushAll_of_gt (by omega) hle (by rwa [groupBytes_take_length hn])))
  · exact hraise (emitGroup_of_none (nBytes_of_mem_illegal hmem) acc _)

/-! ### `InvalidKey` (R186) -/

/-- No rule but those of `KCHAR` and `KEND` raises `InvalidKey`. -/
theorem ruleOf_eq_invalidKey {keyMax : Nat} {i : Instr} {r : Regs} (h : ruleOf keyMax i r = .error .invalidKey) :
    (∃ c, i = .kchar c ∧ kcharRule keyMax c r = .error .invalidKey) ∨ (i = .kend ∧ r.bn ≠ 0) := by
  cases i with
  | clr | rdst | rderr | cbyte _ | hmac | trunc => cases h
  | kbyte b =>
    cases hp : keyPush keyMax b r with
    | ok q => cases (kbyteRule_of_push hp).symm.trans h
    | error e =>
      obtain ⟨-, hfull⟩ := keyPush_error hp
      cases (kbyteRule_of_full hfull).symm.trans h
  | kchar c => exact .inl ⟨c, rfl, h⟩
  | kend => exact .inr ⟨rfl, fun hbn => nomatch (kendRule_of_bn_zero hbn).symm.trans h⟩
  | reduce =>
    cases htv : r.tv with
    | true => cases (reduceRule_of_tv htv).symm.trans h
    | false => cases (reduceRule_of_not_tv htv).symm.trans h
  | rdb idx =>
    rw [ruleOf, rdbRule] at h
    split at h
    · split at h <;> cases h
    · cases h

theorem Exc.eq_invalidKey_of_code {e : Exc} (h : e.code = 0x01) : e = .invalidKey := by
  cases e with
  | invalidKey => rfl
  | _ => simp [Exc.code] at h

/-- Outside `ERROR` no rule that answers leads into it (R78, R190). -/
theorem ruleOf_keeps_out_of_error {keyMax : Nat} {i : Instr} {r r' : Regs} {d : Byte} (hp : r.phase ≠ .error)
    (hl : legality i r.phase = .ok) (h : ruleOf keyMax i r = .ok (r', d)) : r'.phase ≠ .error := by
  by_cases hread : i = .rdst ∨ i = .rderr
  · obtain rfl | rfl := hread <;> cases h <;> exact hp
  · obtain ⟨hst, her⟩ := not_or.mp hread
    exact ruleOf_phase_ne_error hst her hl h

/-- A command that takes `InvalidKey` outside `ERROR` has its rule raise it; the table and a reserved index raise other
faults (R50, R70, R78). -/
theorem rule_raises_of_exec_invalidKey {i : Instr} {s t : State} (hp : s.regs.phase ≠ .error) (h : exec i s = .next t)
    (ht : t.regs.phase = .error) (hcode : t.regs.errc = 0x01) :
    legality i s.regs.phase = .ok ∧ ruleOf s.cfg.keyMax i s.regs = .error .invalidKey := by
  have hraise {e : Exc} (he : exec i s = .next (raiseFault e s)) : e = .invalidKey := by
    rw [he, raiseFault_of_ne e hp] at h
    cases h
    exact Exc.eq_invalidKey_of_code hcode
  by_cases hwf : i.wellFormed = true
  · have hrun := exec_eq_runCommand hwf s
    obtain ⟨hl, -⟩ | ⟨-, he⟩ | ⟨hl, e, hr, he⟩ | ⟨hl, r, d, hr, he⟩ :=
      runCommand_cases i (ruleOf s.cfg.keyMax i) s
    · exact absurd ((legality_refused_iff i _).mp hl).1 hp
    · cases hraise (hrun.trans he)
    · obtain rfl := hraise (hrun.trans he)
      exact ⟨hl, hr⟩
    · rw [hrun, he] at h
      cases h
      exact absurd ht (ruleOf_keeps_out_of_error hp hl hr)
  · cases i with
    | rdb idx =>
      have hidx : 29 < idx.toNat := by simpa [Instr.wellFormed] using hwf
      cases hraise (exec_rdb_of_reserved hidx s)
    | _ => exact absurd rfl hwf

/-- Settles O16: the four situations of `KCHAR` by `kcharRule_eq_invalidKey_iff`, the fifth by the rule of `KEND`. -/
theorem invalidKeyInExactlyFiveSituations : Obligations.InvalidKeyInExactlyFiveSituations := by
  unfold Obligations.InvalidKeyInExactlyFiveSituations
  intro i s hp cause
  refine ⟨?_, ?_⟩
  · rintro (⟨c, rfl, hphase, hsit⟩ | ⟨rfl, hphase, hbn⟩)
    · exact exec_eq_afterFault (e := .invalidKey) rfl (legality_kchar_ok.mpr hphase) hp
        (kcharRule_eq_invalidKey_iff.mpr hsit)
    · exact exec_eq_afterFault (e := .invalidKey) rfl (legality_kend_ok.mpr hphase) hp (kendRule_of_bn_ne_zero hbn)
  · rintro ⟨t, he, ht, hcode⟩
    obtain ⟨hl, hr⟩ := rule_raises_of_exec_invalidKey hp he ht hcode
    obtain ⟨c, rfl, hrule⟩ | ⟨rfl, hbn⟩ := ruleOf_eq_invalidKey hr
    · exact .inl ⟨c, rfl, legality_kchar_ok.mp hl, kcharRule_eq_invalidKey_iff.mp hrule⟩
    · exact .inr ⟨rfl, legality_kend_ok.mp hl, hbn⟩

end Sys2Proof.Machine
end

section
/-! SUPPORT. The phase `ERROR` (R191), and the registers without a read path (R199). -/

namespace Sys2Proof.Machine

open Sys2Proof

/-! ### The phase `ERROR` (R191) -/

/-- In `ERROR` no result is valid, so the status byte is the phase alone (R39, item 9). -/
theorem Regs.Inv.statusByte_of_error {keyMax : Nat} {r : Regs} (hi : r.Inv keyMax) (hp : r.phase = .error) :
    statusByte r = 0x07 := by
  obtain ⟨-, -, -, htv, hcv⟩ := hi.notDone (by simp [hp])
  rw [statusByte, hp, htv, hcv]
  decide

/-- In `ERROR` every word but the three of R191 is refused, whether it decodes or not. -/
theorem step_of_error {s : State} {w : CmdWord} {rest : List HostEvent} (hp : s.regs.phase = .error)
    (hin : s.inbox = .command w :: rest) (hclr : w ≠ 0x0100) (hrdst : w ≠ 0x0200) (hrderr : w ≠ 0x0300) :
    step s = .next (afterRefusal { s with inbox := rest }) := by
  cases hd : decode w with
  | ok i =>
    obtain ⟨rfl, hwf⟩ := encodeOfDecodeIsTheWord w i hd
    have hi : i ≠ .clr ∧ i ≠ .rdst ∧ i ≠ .rderr := by
      refine ⟨?_, ?_, ?_⟩ <;> rintro rfl
      · exact hclr (by decide)
      · exact hrdst (by decide)
      · exact hrderr (by decide)
    exact (stepRunsTheDecodedCommand s _ rest i hin hd).trans
      (exec_eq_afterRefusal hwf ((legality_refused_iff i _).mpr ⟨hp, hi⟩))
  | error e =>
    have hstep : step s = .next (raiseFault .illegalCommand { s with inbox := rest }) := by
      simp [step, hin, hd, execIllegal]
    exact hstep.trans (congrArg _ (raiseFault_eq_afterRefusal _ hp))

/-- Settles O24: the three commands that run in every phase, and `step_of_error` for every other word. -/
theorem errorPhaseRefuses : Obligations.ErrorPhaseRefuses := by
  unfold Obligations.ErrorPhaseRefuses
  rintro s w rest ⟨-, hi⟩ hp hin s1
  have hstep {i : Instr} (hd : decode w = .ok i) : step s = exec i s1 := stepRunsTheDecodedCommand s w rest i hin hd
  refine ⟨?_, ?_, ?_, step_of_error hp hin⟩
  · rintro rfl
    exact (hstep (i := .clr) (by decide)).trans (exec_eq_afterOk rfl (legality_clr _) rfl)
  · rintro rfl
    rw [hstep (i := .rdst) (by decide), ← hi.statusByte_of_error hp]
    exact exec_rdst s1
  · rintro rfl
    exact (hstep (i := .rderr) (by decide)).trans (exec_rderr s1)

/-! ### Registers without a read path (R199) -/

/-- The window shows `DG`, `TR` and `CODE` and nothing else (R51). -/
theorem windowByte_congr {r q : Regs} (hdg : r.dg = q.dg) (htr : r.tr = q.tr) (hcode : r.code = q.code) (a : Nat) :
    windowByte r a = windowByte q a := by
  rw [windowByte, hdg, htr, hcode, windowByte]

/-- An `RDB` that answers gives the window's byte (R176). -/
theorem rdbRule_data {idx : BitVec 5} {r r' : Regs} {d : Byte} (h : rdbRule idx r = .ok (r', d)) :
    windowByte r idx.toNat = some d := by
  unfold rdbRule at h
  split at h
  · split at h <;> cases h
    assumption
  · cases h

/-- The data of a rule that answers depends on the readable registers only (R36, R199). -/
theorem ruleOf_data_eq {keyMax keyMax' : Nat} {i : Instr} {r q r' q' : Regs} {d d' : Byte}
    (hview : publicView r = publicView q) (hdg : r.dg = q.dg) (htr : r.tr = q.tr) (hcode : r.code = q.code)
    (h : ruleOf keyMax i r = .ok (r', d)) (h' : ruleOf keyMax' i q = .ok (q', d')) : d = d' := by
  simp only [publicView, Prod.mk.injEq] at hview
  obtain ⟨hphase, herrc, htv, hcv⟩ := hview
  cases i with
  | rdst =>
    cases h
    cases h'
    rw [statusByte, hphase, htv, hcv, statusByte]
  | rderr =>
    cases h
    cases h'
    exact herrc
  | rdb idx =>
    have hbyte := (rdbRule_data h).symm.trans ((windowByte_congr hdg htr hcode _).trans (rdbRule_data h'))
    exact Option.some.inj hbyte
  | _ =>
    rw [ruleOf_data_eq_zero (by simp) (by simp) (by simp) h, ruleOf_data_eq_zero (by simp) (by simp) (by simp) h']

/-- The response of a command: 0x8000 in `ERROR`, never to a status read, or its rule's data, in `ERROR` only to a status
read (R72, R190, R191). -/
theorem exec_response {i : Instr} {s t : State} (h : exec i s = .next t) :
    (t.outbox = s.outbox ++ [faultRsp] ∧ t.regs.phase = .error ∧ ¬ (i = .rdst ∨ i = .rderr)) ∨
    ∃ d, ruleOf s.cfg.keyMax i s.regs = .ok (t.regs, d) ∧ t.outbox = s.outbox ++ [okRsp d] ∧
      (t.regs.phase = .error → i = .rdst ∨ i = .rderr) := by
  by_cases hread : i = .rdst ∨ i = .rderr
  · refine .inr ?_
    obtain rfl | rfl := hread
    · cases (exec_rdst s).symm.trans h
      exact ⟨_, rfl, rfl, fun _ => .inl rfl⟩
    · cases (exec_rderr s).symm.trans h
      exact ⟨_, rfl, rfl, fun _ => .inr rfl⟩
  · obtain ⟨hst, her⟩ := not_or.mp hread
    obtain ⟨t', he, hout, -, -, hp⟩ | ⟨hl, r, d, hr, he⟩ := exec_fault_or_ok i s <;> cases he.symm.trans h
    · exact .inl ⟨hout, hp, hread⟩
    · exact .inr ⟨d, hr, rfl, fun hp => absurd hp (ruleOf_phase_ne_error hst her hl hr)⟩

/-- Settles O35: both commands answer 0x8000, or both rules answer and their data agree. -/
theorem hiddenRegistersAreNeverRead : Obligations.HiddenRegistersAreNeverRead := by
  unfold Obligations.HiddenRegistersAreNeverRead
  intro i s u s' u' hview hdg htr hcode hout hs hu hiff
  obtain ⟨hs', hsp, hread⟩ | ⟨d, hr, hs', hsp⟩ := exec_response hs <;>
    obtain ⟨hu', hup, hread'⟩ | ⟨d', hr', hu', hup⟩ := exec_response hu
  · rw [hs', hu', hout]
  · exact absurd (hup (hiff.mp hsp)) hread
  · exact absurd (hsp (hiff.mpr hup)) hread'
  · rw [hs', hu', hout, ruleOf_data_eq hview hdg htr hcode hr hr']

end Sys2Proof.Machine
end

section
/-! SUPPORT. Reset (R215), and the purity law of a whole derivation by either key path (R226). -/

namespace Sys2Proof.Machine

open Sys2Proof

/-! ### Reset (R215) -/

/-- A reset clears the registers and is taken off what the host will do; the coming events and the responses stay (log
entry 3). -/
theorem step_of_reset {s : State} {rest : List HostEvent} (hin : s.inbox = .reset :: rest) :
    step s = .next { s with regs := Regs.zero, inbox := rest } := by
  rw [step, hin]
  rfl

/-- Settles O26: the step of a reset event, and `CLR` by the claim about it. -/
theorem resetZeroesAndIsSilent : Obligations.ResetZeroesAndIsSilent := by
  unfold Obligations.ResetZeroesAndIsSilent
  intro s rest hin
  obtain ⟨-, hclr⟩ := clrGivesTheZeroState
  exact ⟨step_of_reset hin, _, hclr s, rfl⟩

/-! ### The purity law (R226) -/

/-- From `S0` the bytes of a raw key and `KEND` load it (R124). -/
theorem runs_keyRaw {keyMax : Nat} (hk : keyMax < 2 ^ 64) {key : List Byte} (hle : key.length ≤ keyMax) :
    Runs keyMax (keyRawCmds key) Regs.zero { Regs.zero with phase := .keyed, k0 := normKey key }
      (List.replicate (key.length + 1) 0x0000) := by
  obtain ⟨q, hruns, hq, hbn, hqp⟩ := runs_kbytes hk key zero_inGroup.loads rfl (.inl rfl) (by simpa using hle)
  rw [List.replicate_succ']
  exact hruns.append (runs_kend hq hbn hqp)

/-- From every state the sequence up to `REDUCE` derives the code of a raw key and the counter (R226): `CLR` forgets the
state before it, and each later part starts from registers the parts before it determine. -/
theorem runs_rawDerivation {keyMax : Nat} (hk : keyMax < 2 ^ 64) {key : List Byte} (hle : key.length ≤ keyMax)
    (c : BitVec 64) (r : Regs) :
    Runs keyMax ([.clr] ++ keyRawCmds key ++ ctr64Cmds c ++ [.hmac, .trunc, .reduce]) r
      (Regs.derived (hmacSha1 (normKey key) (be64 c)) c) (List.replicate (key.length + 13) 0x0000) := by
  have hkey := (runs_clr keyMax r).append (runs_keyRaw hk hle)
  have hruns := (hkey.append (runs_ctr64 c (by simp) (by simp))).append (runs_compute keyMax (normKey key) c)
  rw [show key.length + 13 = 1 + (key.length + 1) + 8 + 3 by omega, List.replicate_add, List.replicate_add,
    List.replicate_add]
  exact hruns

/-- Settles O48: the raw path by `runs_rawDerivation`, the Base32 path by `runs_derivation`. -/
theorem derivationIsPure : Obligations.DerivationIsPure := by
  unfold Obligations.DerivationIsPure
  rintro s key text c ⟨-, hmax⟩ hlen
  have hk : s.cfg.keyMax < 2 ^ 64 := by omega
  exact ⟨(runs_rawDerivation hk hlen c s.regs).endsIn, fun hdec => (runs_derivation hk hdec hlen c s.regs).endsIn⟩

end Sys2Proof.Machine
end
